-- ==== Sys2Proof/Word.lean ====
section
/-! DEFINITION. The byte and word types (spec/00_scope.md R13): a byte is bits(8), a datapath word is bits(W). -/

namespace Sys2Proof

/-- A byte, `bits(8)` (R13). -/
abbrev Byte := BitVec 8

/-- `bits(w)`, the type of w-bit unsigned values (R13, R14): `+`, `-`, `*` wrap modulo 2^w. -/
abbrev Word (w : Nat) := BitVec w

end Sys2Proof
end

