-- ==== Sys2Proof/Config.lean ====
section
/-! DEFINITION. The build parameters of a block (spec/00_scope.md R6, R8, R10). The model takes them as data,
so one model covers every legal build; no parameter is left to a free value. -/

namespace Sys2Proof

/-- The four legal word widths (R6; 90_conflicts.md C1 excludes 2 and 4). -/
inductive Width
  | w8
  | w16
  | w32
  | w64
deriving DecidableEq, Repr

/-- W in bits (R6). -/
def Width.bits : Width → Nat
  | .w8 => 8
  | .w16 => 16
  | .w32 => 32
  | .w64 => 64

/-- The parameters fixed when a block is built: W (R6), P (R8) and NMAX (R10). -/
structure Config where
  width : Width
  p : Nat
  nmax : Nat
deriving DecidableEq, Repr

/-- W, the word width in bits (R6). -/
abbrev Config.bits (cfg : Config) : Nat := cfg.width.bits

/-- B = W / 8, the word size in bytes (R6). -/
abbrev Config.bytes (cfg : Config) : Nat := cfg.width.bits / 8

/-- The reference configuration W = 64, P = 4, NMAX = 64 (R6, R8, R10; identity PRVCORE-W64-P4, R1). -/
def Config.reference : Config := { width := .w64, p := 4, nmax := 64 }

end Sys2Proof
end

