-- ==== Sys2Proof/Syntax.lean ====
section
/-! DEFINITION. The instructions: one constructor per row of spec/opcode_table.json (spec/30_encoding.md R73).
Fields are byte counts, so they are natural numbers; WellFormed.lean says which values the encoding admits. -/

namespace Sys2Proof

/-- A command, as its command word spells it (R70 to R72). The payload is data, not encoding (R70). -/
inductive Instr
  /-- HINIT, format H: the flags IV and SD and the output length L in bytes. -/
  | hinit (iv sd : Bool) (len : Nat)
  /-- HUPD, format N: n message bytes. -/
  | hupd (n : Nat)
  /-- HFIN, format Z. -/
  | hfin
  /-- KINIT, format K: key and nonce lengths in bytes. -/
  | kinit (klen nlen : Nat)
  /-- KXOR, format N: n data bytes. -/
  | kxor (n : Nat)
  /-- KFIN, format Z. -/
  | kfin
  /-- ROUND, format Z. -/
  | round
deriving DecidableEq, Repr

/-- The mnemonic of spec/opcode_table.json. -/
def Instr.mnemonic : Instr → String
  | .hinit _ _ _ => "HINIT"
  | .hupd _ => "HUPD"
  | .hfin => "HFIN"
  | .kinit _ _ => "KINIT"
  | .kxor _ => "KXOR"
  | .kfin => "KFIN"
  | .round => "ROUND"

end Sys2Proof
end

