-- ==== Sys2Proof/WellFormed.lean ====
section
/-! DEFINITION. Which instructions have an encoding: each field fits the bits spec/30_encoding.md R71 gives it. -/

namespace Sys2Proof

/-- Every field fits its place in the command word (R71): L 16 bits, n 24 bits, KLEN and NLEN 8 bits each.
The bounds a command itself checks (R242) are no part of this (R72). -/
def Instr.wf : Instr → Bool
  | .hinit _ _ len => decide (len < 2 ^ 16)
  | .hupd n => decide (n < 2 ^ 24)
  | .hfin => true
  | .kinit klen nlen => decide (klen < 2 ^ 8) && decide (nlen < 2 ^ 8)
  | .kxor n => decide (n < 2 ^ 24)
  | .kfin => true
  | .round => true

end Sys2Proof
end

