-- ==== Sys2Proof/Decode.lean ====
section
/-! DEFINITION. Decoding and encoding of the 32-bit command word, and the payload length it announces
(spec/30_encoding.md R70 to R82). The command word is one 32-bit value; how a bus splits it into bytes is outside
the spec (20_memory.md R54; log 16). -/

namespace Sys2Proof

/-- `cmd[hi:lo]` as an unsigned number (R13). -/
def bitField (cmd : BitVec 32) (hi lo : Nat) : Nat := (cmd.extractLsb hi lo).toNat

/-- OPC = cmd[31:24] (R70). -/
def opcodeOf (cmd : BitVec 32) : Nat := bitField cmd 31 24

/-- Why a command word is not an instruction (R74, R75). -/
inductive DecodeError
  /-- OPC = 0x00 or 0x08 to 0xFF (R75). -/
  | illegalOpcode
  /-- A legal opcode with a bit of a field 'reserved, must be 0' set (R74). -/
  | reservedField
deriving DecidableEq, Repr

/-- The bits that R74 reserves for an opcode, as a number: 0 when none is set. -/
def reservedField (opc : Nat) (cmd : BitVec 32) : Nat :=
  match opc with
  | 1 => bitField cmd 21 16
  | 3 => bitField cmd 23 0
  | 4 => bitField cmd 23 16
  | 6 => bitField cmd 23 0
  | 7 => bitField cmd 23 0
  | _ => 0

/-- The row of R73 that the opcode selects, with its operands assembled as R72 says; none for an illegal
opcode. Reserved bits are not looked at here. -/
def decodeRow (cmd : BitVec 32) : Option Instr :=
  match opcodeOf cmd with
  | 1 => some (.hinit (decide (bitField cmd 23 23 = 1)) (decide (bitField cmd 22 22 = 1)) (bitField cmd 15 0))
  | 2 => some (.hupd (bitField cmd 23 0))
  | 3 => some .hfin
  | 4 => some (.kinit (bitField cmd 15 8) (bitField cmd 7 0))
  | 5 => some (.kxor (bitField cmd 23 0))
  | 6 => some .kfin
  | 7 => some .round
  | _ => none

/-- Decode (R82): the opcode is checked before the reserved bits (60_exceptions.md R242). Total on every word. -/
def decode (cmd : BitVec 32) : Except DecodeError Instr :=
  match decodeRow cmd with
  | none => .error .illegalOpcode
  | some i => if reservedField (opcodeOf cmd) cmd ≠ 0 then .error .reservedField else .ok i

/-- The command word of a well-formed instruction (R71, R73), written as the sum of its fields at their places. -/
def encode : Instr → BitVec 32
  | .hinit iv sd len => BitVec.ofNat 32 (0x01 * 2 ^ 24 + iv.toNat * 2 ^ 23 + sd.toNat * 2 ^ 22 + len)
  | .hupd n => BitVec.ofNat 32 (0x02 * 2 ^ 24 + n)
  | .hfin => BitVec.ofNat 32 (0x03 * 2 ^ 24)
  | .kinit klen nlen => BitVec.ofNat 32 (0x04 * 2 ^ 24 + klen * 2 ^ 8 + nlen)
  | .kxor n => BitVec.ofNat 32 (0x05 * 2 ^ 24 + n)
  | .kfin => BitVec.ofNat 32 (0x06 * 2 ^ 24)
  | .round => BitVec.ofNat 32 (0x07 * 2 ^ 24)

/-- PL(cmd) (R80): how many payload bytes a command word announces, on a block of word size `bytes`. It is computed
from the fields whether or not the command will be accepted. -/
def payloadLength (bytes : Nat) (cmd : BitVec 32) : Nat :=
  match opcodeOf cmd with
  | 1 => (if bitField cmd 22 22 = 1 then bytes else 0) + (if bitField cmd 23 23 = 1 then bitField cmd 15 0 else 0)
  | 2 => bitField cmd 23 0
  | 4 => bitField cmd 15 8 + bitField cmd 7 0
  | 5 => bitField cmd 23 0
  | 7 => 3 * bytes
  | _ => 0

/-- The instruction the decoder reads from an opcode-table word: nbits bits of `w`, zeros above them. -/
def decodeTableWord (nbits w : Nat) : Option Instr :=
  match decode (BitVec.ofNat 32 (w % 2 ^ nbits)) with
  | .ok i => some i
  | .error _ => none

/-- A row of the opcode table: the words `cmd` with `cmd and mask = pattern`. -/
structure OpcodeRow where
  mnemonic : String
  pattern : BitVec 32
  mask : BitVec 32
deriving DecidableEq, Repr

/-- spec/opcode_table.json, its columns mnemonic, match and mask. The decoder does not read it: it is there to hold
the decoder against. -/
def opcodeTable : List OpcodeRow :=
  [{ mnemonic := "HINIT", pattern := 0x01000000, mask := 0xFF3F0000 },
   { mnemonic := "HUPD", pattern := 0x02000000, mask := 0xFF000000 },
   { mnemonic := "HFIN", pattern := 0x03000000, mask := 0xFFFFFFFF },
   { mnemonic := "KINIT", pattern := 0x04000000, mask := 0xFFFF0000 },
   { mnemonic := "KXOR", pattern := 0x05000000, mask := 0xFF000000 },
   { mnemonic := "KFIN", pattern := 0x06000000, mask := 0xFFFFFFFF },
   { mnemonic := "ROUND", pattern := 0x07000000, mask := 0xFFFFFFFF }]

end Sys2Proof
end

