-- ==== Sys2Proof/Machine/State.lean ====
section
/-! DEFINITION. The state of the block as plain data (spec/10_state.md), its reset, and why a step can stop.
The build parameters stand in the state as `cfg`, which no step changes, so that the model covers every build. -/

namespace Sys2Proof.Machine

/-- ST, the context state (R22). IDLE is the document's 'Finalized' (92_eei_decisions.md D35). -/
inductive CtxState
  /-- No context; every datapath element is zero or empty (R35). -/
  | idle
  /-- A hash context with no message byte yet. -/
  | empty
  /-- A hash context that has received a message byte. -/
  | filling
  /-- A keystream context. -/
  | keystream
deriving DecidableEq, Repr

/-- The result codes of STATUS.ERR (60_exceptions.md R241). Values 8 to 15 are never written: there is no such
constructor. -/
inductive ErrCode
  /-- 0: accepted. -/
  | ok
  /-- 1, E_OPCODE: illegal opcode. -/
  | opcode
  /-- 2, E_FIELD: a reserved bit of the command word is 1. -/
  | field
  /-- 3, E_STATE: not legal in the current ST. -/
  | state
  /-- 4, E_OUTLEN: HINIT's output length. -/
  | outlen
  /-- 5, E_KEYLEN: KINIT's key length. -/
  | keylen
  /-- 6, E_NONCELEN: KINIT's nonce length. -/
  | noncelen
  /-- 7, E_WIDTH: KINIT on a block with W ≠ 64. -/
  | width
deriving DecidableEq, Repr

/-- A lane: the pair (Seed, Lcg) (R23, 44_multilane.md R190). -/
structure Lane (w : Nat) where
  seed : Word w
  lcg : Word w
deriving DecidableEq, Repr

/-- The datapath state of the one context the block holds (R20, R22 to R29, R34): all that a wipe zeroes. -/
structure Context (cfg : Config) where
  /-- ST (R22). -/
  st : CtxState
  /-- N, the number of hash words of the context (R24). -/
  n : Nat
  /-- Lane j is the pair (Seed[j], Lcg[j]), j = 0 .. P-1 (R23). -/
  lanes : List (Lane cfg.bits)
  /-- Hash[0 .. NMAX-1] (R24). -/
  hash : List (Word cfg.bits)
  /-- The cursor (R25). -/
  cur : Nat
  /-- The active-lane index (R26). -/
  lane : Nat
  /-- The holding buffer (R27). -/
  hb : List Byte
  /-- Bit 7 of the last message byte received (R27). -/
  fbit : Bool
  /-- The 'capacity filled' flag (R28). -/
  filled : Bool
  /-- Firewall lane f is the pair (FS[f], FL[f]) (R29). -/
  fw : Vector (Lane cfg.bits) 2
  /-- FH[0 .. 2], the firewall hash history (R29). -/
  fh : Vector (Word cfg.bits) 3
  /-- fc, the firewall history cursor (R29). -/
  fc : Fin 3
  /-- The leftover keystream buffer (R34). -/
  kb : List Byte
deriving DecidableEq, Repr

/-- The wiped context: every datapath element zero or empty (R35, R37; 43_finalization.md R176). -/
def Context.zero (cfg : Config) : Context cfg :=
  { st := .idle
    n := 0
    lanes := List.replicate cfg.p { seed := 0, lcg := 0 }
    hash := List.replicate cfg.nmax 0
    cur := 0
    lane := 0
    hb := []
    fbit := false
    filled := false
    fw := Vector.replicate 2 { seed := 0, lcg := 0 }
    fh := Vector.replicate 3 0
    fc := 0
    kb := [] }

/-- A transaction: a 32-bit command word and the payload byte string it carries (00_scope.md R3, R18). -/
structure Transaction where
  cmd : BitVec 32
  payload : List Byte
deriving DecidableEq, Repr

/-- What the host does to the block's interfaces (00_scope.md R3). A register read has no side effect (R30), so it is
no action: `readRegister` reads any state. -/
inductive HostAction
  /-- A transaction sent to the command port. -/
  | transaction (t : Transaction)
  /-- The host takes up to `count` bytes from the data-out stream (60_exceptions.md R249).
  DESIGN CHOICE, log 5; safe. -/
  | take (count : Nat)
  /-- The reset input is asserted, possibly while a transaction is in progress, which is then abandoned
  (70_reset_and_hazards.md R270). -/
  | reset (inProgress : Option Transaction)
deriving DecidableEq, Repr

/-- The machine. `payload` and `port` are the model's own fields (log 3); all else is the spec's. -/
structure State where
  /-- The build parameters W, P, NMAX, which PARAM0 and PARAM1 show (R32, R33). No step changes them. -/
  cfg : Config
  /-- The context (R20). -/
  ctx : Context cfg
  /-- STATUS.ERR, the result code of the most recent transaction (R31). -/
  err : ErrCode
  /-- The data-out stream: bytes emitted and not yet taken, oldest first (20_memory.md R59; no bound,
  log 13). -/
  dout : List Byte
  /-- The payload of the transaction being executed (00_scope.md R16); empty between transactions. -/
  payload : List Byte
  /-- What the host has done at the interfaces and the block has not yet acted on, oldest first. -/
  port : List HostAction
deriving DecidableEq, Repr

/-- A fault: the block has none. Nothing traps (60_exceptions.md R245), and a command cannot fail after its checks
(R240); a rejected command is a next state. -/
inductive Fault
deriving DecidableEq, Repr

/-- Why the model has no step. -/
inductive Refusal
  /-- An instruction whose arm of exec has no meaning. Raised by no arm of this model; safe. -/
  | notModelled (mnemonic : String)
  /-- A transaction whose payload length is not PL(cmd): 'the step relation has no move for it' (30_encoding.md R83).
  Raised by `step`; safe. -/
  | payloadLength
deriving DecidableEq, Repr

/-- The block of a given build right after reset (R37; 70_reset_and_hazards.md R270). -/
def State.resetOf (cfg : Config) : State :=
  { cfg := cfg
    ctx := Context.zero cfg
    err := .ok
    dout := []
    payload := []
    port := [] }

/-- The reference build right after reset. DESIGN CHOICE (log 1): the spec calls this configuration the reference one
and fixes none. -/
def State.reset : State := State.resetOf Config.reference

end Sys2Proof.Machine
end

