-- ==== Sys2Proof/Machine/Ops.lean ====
section
/-! DEFINITION. The shared operations: byte order, the fixed constants, and how a transaction ends. Ending in
`reject` is what this block has instead of taking an exception (60_exceptions.md R243, R245): nothing is saved, no
control is transferred, and there is no return. -/

namespace Sys2Proof.Machine

/-! ### Fixed constants (00_scope.md R11, R12) -/

/-- WARMUP (R12; 90_conflicts.md C5). -/
def warmUpRounds : Nat := 5
/-- KS_N, the HashArray length of a keystream context (R11). -/
def ksN : Nat := 16
/-- KEY_MIN (R12), in bytes. -/
def keyMin : Nat := 16
/-- KEY_MAX (R12), in bytes. -/
def keyMax : Nat := 128
/-- NONCE_MAX (R12), in bytes; NONCE_MIN is 0. -/
def nonceMax : Nat := 96
/-- The granularity of key and nonce lengths, in bytes (45_keystream.md R211; 90_conflicts.md C2). -/
def keyUnit : Nat := 8

/-! ### Byte order (00_scope.md R15; 20_memory.md R52, R53; PRESUMED by the spec itself, log 14) -/

/-- `Σ a[i]·2^(8i)`, the number a byte string spells, first byte least significant (R15). -/
def leNat : List Byte → Nat
  | [] => 0
  | b :: bs => b.toNat + 2 ^ 8 * leNat bs

/-- `LE(a)` for `len(a) ≤ B` (R15): the word, missing high bytes zero. -/
def le (w : Nat) (a : List Byte) : Word w := BitVec.ofNat w (leNat a)

/-- `bytesLE(v)` (R15): the B bytes of a word, least significant first. -/
def bytesLE {w : Nat} (v : Word w) : List Byte :=
  (List.range (w / 8)).map fun i => v.extractLsb' (8 * i) 8

/-! ### The end of a transaction -/

/-- `raise Reject(code)` (R16; R243): ERR takes the code, the payload is discarded, nothing is emitted and nothing else
changes. -/
def reject (e : ErrCode) (s : State) : State := { s with err := e, payload := [] }

/-- The end of an accepted command: its new context is in place, its output stands at the end of the data-out stream
(`Emit`, R16), its payload is consumed, and ERR <- 0 (R243). -/
def accept (s : State) (ctx : Context s.cfg) (out : List Byte) : State :=
  { s with ctx := ctx, err := .ok, dout := s.dout ++ out, payload := [] }

/-- Wipe() (43_finalization.md R176): every datapath element zero or empty, ST = IDLE. -/
def wipe {cfg : Config} (_ : Context cfg) : Context cfg := Context.zero cfg

/-! ### Reading and writing the register files through their indices (R16) -/

/-- Lane j (R23). An index at or above P names no lane; it reads as zero here (log 8). -/
def laneAt {cfg : Config} (c : Context cfg) (j : Nat) : Lane cfg.bits := c.lanes.getD j { seed := 0, lcg := 0 }

/-- Hash[i] (R24). An index at or above NMAX names no slot; it reads as zero here (log 8). -/
def hashAt {cfg : Config} (c : Context cfg) (i : Nat) : Word cfg.bits := c.hash.getD i 0

/-- `f` applied `k` times. -/
def repeatN {α : Type} (f : α → α) : Nat → α → α
  | 0, x => x
  | k + 1, x => repeatN f k (f x)

end Sys2Proof.Machine
end

