-- ==== Sys2Proof/Machine/CoreRound.lean ====
section
/-! DEFINITION. The core round (40_core_round.md R100, R101), the zero-state constants it gives (R107), and the sweep
of one round per lane over one slot that blank rounds and squeeze words share (43_finalization.md R172, R174). -/

namespace Sys2Proof.Machine

/-- K_W, the alternating bit pattern 0xAAAA… of width w (00_scope.md R7): the low w bits of the 64-bit one. -/
def kW (w : Nat) : Word w := BitVec.ofNat w 0xAAAAAAAAAAAAAAAA

/-- `rot(a)`, the rotation by HALF = w / 2 (00_scope.md R14). -/
def rot {w : Nat} (a : Word w) : Word w := (a >>> (w / 2)) ||| (a <<< (w / 2))

/-- The triple a round reads: Seed, Lcg (C) and HashWord. -/
structure Triple (w : Nat) where
  seed : Word w
  lcg : Word w
  hash : Word w
deriving DecidableEq, Repr

/-- What a round returns: the new triple and `out`. -/
structure RoundResult (w : Nat) where
  seed : Word w
  lcg : Word w
  hash : Word w
  out : Word w
deriving DecidableEq, Repr

/-- `Round(S, C, H)` (R101). -/
def coreRound {w : Nat} (s c h : Word w) : RoundResult w :=
  let s1 := s * (c - ~~~c)
  let rs := rot s1
  let c1 := c + s1
  let h1 := h + rs + kW w
  { seed := s1 ^^^ h1, lcg := c1, hash := h1, out := c1 ^^^ rs }

/-- One round that carries all three words forward and discards `out` (R107). -/
def carryRound {w : Nat} (t : Triple w) : Triple w :=
  let r := coreRound t.seed t.lcg t.hash
  { seed := r.seed, lcg := r.lcg, hash := r.hash }

/-- The zero-state constants (S5, L5, H5) (R107): five rounds from S = C = H = 0. Computed, not stored (log 6). -/
def zeroState (w : Nat) : Triple w := repeatN carryRound warmUpRounds { seed := 0, lcg := 0, hash := 0 }

/-- What running every lane once on one slot leaves: the lanes, the slot's word, and the XOR of the outs. -/
structure Sweep (w : Nat) where
  lanes : List (Lane w)
  hash : Word w
  out : Word w
deriving DecidableEq, Repr

/-- Every lane of the list in order runs one round against one hash word; each round sees the word the round before it
left (44_multilane.md R191), and the outs are XORed together (43_finalization.md R174). -/
def sweepLanes {w : Nat} : List (Lane w) → Word w → Sweep w
  | [], h => { lanes := [], hash := h, out := 0 }
  | l :: ls, h =>
    let r := coreRound l.seed l.lcg h
    let rest := sweepLanes ls r.hash
    { lanes := { seed := r.seed, lcg := r.lcg } :: rest.lanes, hash := rest.hash, out := r.out ^^^ rest.out }

/-- Every lane runs one round on Hash[cur], then the cursor advances by one (43_finalization.md R172, R174): the new
context and the XOR of the outs. `lane` and `filled` do not change. -/
def sweepSlot {cfg : Config} (c : Context cfg) : Context cfg × Word cfg.bits :=
  let s := sweepLanes c.lanes (hashAt c c.cur)
  ({ c with lanes := s.lanes, hash := c.hash.set c.cur s.hash, cur := (c.cur + 1) % c.n }, s.out)

/-- The active lane runs one round on Hash[cur] with `m` XORed into its Lcg; the cursor and the active lane advance by
one (42_absorption.md R145; with m = 0, the main round of 45_keystream.md R214): the new context and the round's
out. -/
def laneRound {cfg : Config} (m : Word cfg.bits) (c : Context cfg) : Context cfg × Word cfg.bits :=
  let l := laneAt c c.lane
  let r := coreRound l.seed (l.lcg ^^^ m) (hashAt c c.cur)
  ({ c with
      lanes := c.lanes.set c.lane { seed := r.seed, lcg := r.lcg }
      hash := c.hash.set c.cur r.hash
      cur := (c.cur + 1) % c.n
      lane := (c.lane + 1) % cfg.p }, r.out)

end Sys2Proof.Machine
end

