-- ==== Sys2Proof/Machine/Flags.lean ====
section
/-! DEFINITION. Status: the codes of ST and ERR, the registers of the read port (10_state.md R30 to R33), and the check
that decides what code a transaction reports (60_exceptions.md R242). The block has no condition codes (R36). -/

namespace Sys2Proof.Machine

/-- The 2-bit value of ST (R22). -/
def CtxState.code : CtxState → BitVec 2
  | .idle => 0
  | .empty => 1
  | .filling => 2
  | .keystream => 3

/-- The 4-bit value of ERR (R241). -/
def ErrCode.code : ErrCode → BitVec 4
  | .ok => 0
  | .opcode => 1
  | .field => 2
  | .state => 3
  | .outlen => 4
  | .keylen => 5
  | .noncelen => 6
  | .width => 7

/-- The code an undecodable command word is rejected with (R241; 30_encoding.md R74, R75). -/
def decodeErrCode : DecodeError → ErrCode
  | .illegalOpcode => .opcode
  | .reservedField => .field

/-- STATUS (R31): bits 31:8 zero, ERR in 7:4, bit 3 zero, FILLED in 2, ST in 1:0. -/
def statusWord (s : State) : BitVec 32 :=
  0#24 ++ s.err.code ++ 0#1 ++ BitVec.ofBool s.ctx.filled ++ s.ctx.st.code

/-- PARAM0.KSN (R32): KS_N if W = 64, else 0. -/
def ksnField (cfg : Config) : Nat := if cfg.width = .w64 then ksN else 0

/-- PARAM0 (R32): KSN in 23:16, P in 15:8, W in 7:0. -/
def param0Word (cfg : Config) : BitVec 32 :=
  0#8 ++ BitVec.ofNat 8 (ksnField cfg) ++ BitVec.ofNat 8 cfg.p ++ BitVec.ofNat 8 cfg.bits

/-- PARAM1 (R33): NMAX in 15:0. -/
def param1Word (cfg : Config) : BitVec 32 := 0#16 ++ BitVec.ofNat 16 cfg.nmax

/-- The register read port (R30). Reading changes nothing, so this is a function of the state, to be applied to any
state between two transactions. -/
def readRegister (s : State) (idx : BitVec 2) : BitVec 32 :=
  if idx = 0 then statusWord s
  else if idx = 1 then param0Word s.cfg
  else if idx = 2 then param1Word s.cfg
  else 0

/-- The identity string `PRVCORE-W<W>-P<P>` (00_scope.md R1). -/
def identity (cfg : Config) : String := "PRVCORE-W" ++ toString cfg.bits ++ "-P" ++ toString cfg.p

/-- `fb = 1 << fbit`, the final-byte marker, 1 or 2 (41_word_loader.md R121). -/
def finalByteMarker (fbit : Bool) : Nat := 1 <<< fbit.toNat

/-- An output length HINIT rejects (R242): 0, not a multiple of B, or above NMAX·B. -/
def badOutLen (cfg : Config) (len : Nat) : Bool :=
  decide (len = 0) || decide (len % cfg.bytes ≠ 0) || decide (cfg.nmax * cfg.bytes < len)

/-- A key length KINIT rejects (R242; 45_keystream.md R211). -/
def badKeyLen (klen : Nat) : Bool :=
  decide (klen < keyMin) || decide (keyMax < klen) || decide (klen % keyUnit ≠ 0)

/-- A nonce length KINIT rejects (R242; 45_keystream.md R211). -/
def badNonceLen (nlen : Nat) : Bool := decide (nonceMax < nlen) || decide (nlen % keyUnit ≠ 0)

/-- `RES(OPC)` (R242): the reserved bits of a legal opcode, as a mask. -/
def reservedMask : Nat → BitVec 32
  | 1 => 0x003F0000
  | 3 => 0x00FFFFFF
  | 4 => 0x00FF0000
  | 6 => 0x00FFFFFF
  | 7 => 0x00FFFFFF
  | _ => 0

/-- `LEGAL(OPC)` (R242): the states in which a legal opcode is accepted. -/
def legalStates : Nat → List CtxState
  | 1 => [.idle]
  | 2 => [.empty, .filling]
  | 3 => [.empty, .filling]
  | 4 => [.idle]
  | 5 => [.keystream]
  | 6 => [.keystream]
  | 7 => [.idle, .empty, .filling, .keystream]
  | _ => []

/-- `Check(cmd, ST)` (R242), as one function of the command word, ST and the build parameters. The commands' own meanings
raise the same codes piece by piece, as their rules do; no step calls this. -/
def check (cfg : Config) (cmd : BitVec 32) (st : CtxState) : ErrCode :=
  let opc := opcodeOf cmd
  if opc < 1 ∨ 7 < opc then .opcode
  else if cmd &&& reservedMask opc ≠ 0 then .field
  else if st ∉ legalStates opc then .state
  else if opc = 1 ∧ badOutLen cfg (bitField cmd 15 0) then .outlen
  else if opc = 4 ∧ cfg.width ≠ .w64 then .width
  else if opc = 4 ∧ badKeyLen (bitField cmd 15 8) then .keylen
  else if opc = 4 ∧ badNonceLen (bitField cmd 7 0) then .noncelen
  else .ok

end Sys2Proof.Machine
end

