-- ==== Sys2Proof/Machine/Loader.lean ====
section
/-! DEFINITION. The word loader (41_word_loader.md) and the absorption of message words and bytes
(42_absorption.md R145, R147). HUPD and KINIT feed it; Flush ends it. -/

namespace Sys2Proof.Machine

/-- `TailWord(hb, fbit)` (R122): the leftover bytes with the sentinel fb in the byte after them. -/
def tailWord (w : Nat) (hb : List Byte) (fbit : Bool) : Word w :=
  le w hb ||| (BitVec.ofNat w (finalByteMarker fbit) <<< (8 * hb.length))

/-- AbsorbWord(m) (R145): the active lane's round with m XORed into its Lcg, the round's out discarded, and FILLED set
when the slot was N - 1 (10_state.md R28). -/
def absorbWord {cfg : Config} (m : Word cfg.bits) (c : Context cfg) : Context cfg :=
  { (laneRound m c).1 with filled := c.filled || decide (c.cur + 1 = c.n) }

/-- One byte of UpdateBytes (R147): a word is absorbed as soon as its B-th byte arrives (R120). -/
def updateByte {cfg : Config} (c : Context cfg) (b : Byte) : Context cfg :=
  let c1 := { c with hb := c.hb ++ [b], fbit := b.getLsbD 7 }
  if c1.hb.length = cfg.bytes then { absorbWord (le cfg.bits c1.hb) c1 with hb := [] } else c1

/-- UpdateBytes(data) (R147). -/
def updateBytes {cfg : Config} (c : Context cfg) (data : List Byte) : Context cfg := data.foldl updateByte c

/-- `cur <- 0; lane <- 0; hb <- []; fbit <- 0; filled <- 0`, as every INIT does (R141; 45_keystream.md R212). -/
def rewind {cfg : Config} (c : Context cfg) : Context cfg :=
  { c with cur := 0, lane := 0, hb := [], fbit := false, filled := false }

/-- BlankRound() (43_finalization.md R172): every lane on Hash[cur], the outs discarded. -/
def blankRound {cfg : Config} (c : Context cfg) : Context cfg := (sweepSlot c).1

/-- Flush() (43_finalization.md R171): the tail word, then N blank rounds. fbit is left as it is. -/
def flush {cfg : Config} (c : Context cfg) : Context cfg :=
  repeatN blankRound c.n (absorbWord (tailWord cfg.bits c.hb c.fbit) { c with hb := [] })

/-- InitNoIV(seed) (R143): the zero-state shortcut. Every lane starts from (S5 xor seed, L5); Hash[0] = H5 and the
other slots are zero. -/
def initNoIV {cfg : Config} (seed : Word cfg.bits) (c : Context cfg) : Context cfg :=
  let z := zeroState cfg.bits
  { c with
    lanes := List.replicate cfg.p { seed := z.seed ^^^ seed, lcg := z.lcg }
    hash := z.hash :: List.replicate (cfg.nmax - 1) 0 }

end Sys2Proof.Machine
end

