-- ==== Sys2Proof/Machine/Operands.lean ====
section
/-! DEFINITION. Where a command's operands stand in its payload (30_encoding.md R81). Byte 0 is the first payload
byte. A payload shorter than its command announces never gets here (log 10). -/

namespace Sys2Proof.Machine

/-- HINIT's seed override: `LE(Payload[0..B-1])` when SD = 1, else 0 (42_absorption.md R142). -/
def seedOperand (cfg : Config) (sd : Bool) (payload : List Byte) : Word cfg.bits :=
  if sd then le cfg.bits (payload.take cfg.bytes) else 0

/-- HINIT's init vector: the `len` bytes after the seed override (R81, R141). -/
def ivOperand (cfg : Config) (sd : Bool) (len : Nat) (payload : List Byte) : List Byte :=
  (payload.drop (if sd then cfg.bytes else 0)).take len

/-- KINIT's key: the first KLEN bytes (R81). -/
def keyOperand (klen : Nat) (payload : List Byte) : List Byte := payload.take klen

/-- KINIT's nonce: the NLEN bytes after the key (R81). -/
def nonceOperand (klen nlen : Nat) (payload : List Byte) : List Byte := (payload.drop klen).take nlen

/-- Word k of a payload of words, k = 0, 1, … (R81: ROUND's S, C and H; 42_absorption.md R144: the words of an init
vector). -/
def wordOperand (cfg : Config) (k : Nat) (payload : List Byte) : Word cfg.bits :=
  le cfg.bits ((payload.drop (k * cfg.bytes)).take cfg.bytes)

end Sys2Proof.Machine
end

