-- ==== Sys2Proof/Machine/Hash.lean ====
section
/-! DEFINITION. The hash commands HINIT, HUPD and HFIN (42_absorption.md, 43_finalization.md). Each meaning makes its
checks in the order of 60_exceptions.md R242, then runs its rule. -/

namespace Sys2Proof.Machine

/-! ### HINIT -/

/-- The warm-up of R144 for `k` lanes in order: each starts from (seed, 0) and runs WARMUP rounds on Hash[0], which the
lane before it has changed. The lanes and the final Hash[0]. -/
def warmUpLanes {w : Nat} (seed : Word w) : Nat → Word w → List (Lane w) × Word w
  | 0, h => ([], h)
  | k + 1, h =>
    let t := repeatN carryRound warmUpRounds { seed := seed, lcg := 0, hash := h }
    let rest := warmUpLanes seed k t.hash
    ({ seed := t.seed, lcg := t.lcg } :: rest.1, rest.2)

/-- InitIV(seed, iv) (R144), for a context whose N is set: Hash[0..N-1] is the init vector, the rest zero, and every
lane warms up on slot 0. -/
def initIV {cfg : Config} (seed : Word cfg.bits) (iv : List Byte) (c : Context cfg) : Context cfg :=
  let loaded := (List.range c.n).map (fun i => wordOperand cfg i iv) ++ List.replicate (cfg.nmax - c.n) 0
  let w := warmUpLanes seed cfg.p (loaded.getD 0 0)
  { c with lanes := w.1, hash := loaded.set 0 w.2 }

/-- The accepted part of HINIT (R141): N <- L / B, the init path, the loader's start values, ST <- EMPTY. -/
def startHash {cfg : Config} (iv sd : Bool) (len : Nat) (payload : List Byte) (c : Context cfg) : Context cfg :=
  let seed := seedOperand cfg sd payload
  let c1 := { c with n := len / cfg.bytes }
  let c2 := if iv then initIV seed (ivOperand cfg sd len payload) c1 else initNoIV seed c1
  { rewind c2 with st := .empty }

/-- HINIT (R141). -/
def execHinit (iv sd : Bool) (len : Nat) (s : State) : Host.Outcome State Fault Refusal :=
  if s.ctx.st ≠ .idle then .next (reject .state s)
  else if badOutLen s.cfg len then .next (reject .outlen s)
  else .next (accept s (startHash iv sd len s.payload s.ctx) [])

/-! ### HUPD -/

/-- The accepted part of HUPD (R146): UpdateBytes, and ST <- FILLING when n ≥ 1. -/
def updateHash {cfg : Config} (n : Nat) (payload : List Byte) (c : Context cfg) : Context cfg :=
  let c1 := updateBytes c payload
  { c1 with st := if 1 ≤ n then .filling else c1.st }

/-- HUPD (R146). -/
def execHupd (n : Nat) (s : State) : Host.Outcome State Fault Refusal :=
  if s.ctx.st = .empty ∨ s.ctx.st = .filling then .next (accept s (updateHash n s.payload s.ctx) [])
  else .next (reject .state s)

/-! ### HFIN -/

/-- `k` output words of Squeeze() (R174), each as bytesLE (R175), and the context they leave. -/
def squeezeWords {cfg : Config} : Nat → Context cfg → Context cfg × List Byte
  | 0, c => (c, [])
  | k + 1, c =>
    let w := sweepSlot c
    let rest := squeezeWords k w.1
    (rest.1, bytesLE w.2 ++ rest.2)

/-- Squeeze() (R174): N output words. -/
def squeeze {cfg : Config} (c : Context cfg) : Context cfg × List Byte := squeezeWords c.n c

/-- HFIN (R170): Flush, Squeeze, Emit, Wipe. -/
def execHfin (s : State) : Host.Outcome State Fault Refusal :=
  if s.ctx.st = .empty ∨ s.ctx.st = .filling then
    let q := squeeze (flush s.ctx)
    .next (accept s (wipe q.1) q.2)
  else .next (reject .state s)

end Sys2Proof.Machine
end

