-- ==== Sys2Proof/Machine/Keystream.lean ====
section
/-! DEFINITION. The keystream commands KINIT, KXOR and KFIN (45_keystream.md) and the firewall sub-generator
(44_multilane.md R195 to R197). -/

namespace Sys2Proof.Machine

/-! ### The firewall -/

/-- FirewallStep(f, o) (44_multilane.md R196): o is XORed into FL[f], lane f runs one round on FH[fc], and fc advances
modulo 3. The new context and k, the only value that leaves the firewall. -/
def firewallStep {cfg : Config} (f : Fin 2) (o : Word cfg.bits) (c : Context cfg) : Context cfg × Word cfg.bits :=
  let l := c.fw[f]
  let r := coreRound l.seed (l.lcg ^^^ o) c.fh[c.fc]
  ({ c with fw := c.fw.set f { seed := r.seed, lcg := r.lcg }, fh := c.fh.set c.fc r.hash, fc := c.fc + 1 }, r.out)

/-- FirewallInit() (R213): both lanes at (S5, L5), the history at [H5, 0, 0], fc = 0. -/
def firewallInit {cfg : Config} (c : Context cfg) : Context cfg :=
  let z := zeroState cfg.bits
  { c with fw := Vector.replicate 2 { seed := z.seed, lcg := z.lcg }, fh := #v[z.hash, 0, 0], fc := 0 }

/-! ### KINIT -/

/-- KeyInit(key, nonce) (R212). -/
def keyInit {cfg : Config} (key nonce : List Byte) (c : Context cfg) : Context cfg :=
  let c1 := rewind (initNoIV 0 { c with n := ksN })
  let c2 := flush (updateBytes c1 (key ++ nonce))
  { firewallInit c2 with kb := [] }

/-- The accepted part of KINIT (R210): KeyInit, then ST <- KEYSTREAM. -/
def startKeystream {cfg : Config} (klen nlen : Nat) (payload : List Byte) (c : Context cfg) : Context cfg :=
  { keyInit (keyOperand klen payload) (nonceOperand klen nlen payload) c with st := .keystream }

/-- KINIT (R210). -/
def execKinit (klen nlen : Nat) (s : State) : Host.Outcome State Fault Refusal :=
  if s.ctx.st ≠ .idle then .next (reject .state s)
  else if s.cfg.width ≠ .w64 then .next (reject .width s)
  else if badKeyLen klen then .next (reject .keylen s)
  else if badNonceLen nlen then .next (reject .noncelen s)
  else .next (accept s (startKeystream klen nlen s.payload s.ctx) [])

/-! ### KXOR -/

/-- One half of a keystream block (R214): the active main lane's round with no input, whose out feeds firewall
lane f. -/
def halfBlock {cfg : Config} (f : Fin 2) (c : Context cfg) : Context cfg × Word cfg.bits :=
  let m := laneRound 0 c
  firewallStep f m.2 m.1

/-- GenBlock() (R214): `bytesLE(k0) ++ bytesLE(k1)`, and the context it leaves. -/
def genBlock {cfg : Config} (c : Context cfg) : Context cfg × List Byte :=
  let h0 := halfBlock 0 c
  let h1 := halfBlock 1 h0.1
  (h1.1, bytesLE h0.2 ++ bytesLE h1.2)

/-- `if kb = []: kb <- GenBlock()` (R215, R216): a block is generated only when a byte needs one. -/
def refill {cfg : Config} (c : Context cfg) : Context cfg :=
  match c.kb with
  | [] => { (genBlock c).1 with kb := (genBlock c).2 }
  | _ :: _ => c

/-- KXOR's loop (R215): each data byte is XORed with the first byte of kb, which is then dropped. The new context and
the output. -/
def xorBytes {cfg : Config} : List Byte → Context cfg → Context cfg × List Byte
  | [], c => (c, [])
  | d :: ds, c =>
    let c1 := refill c
    let rest := xorBytes ds { c1 with kb := c1.kb.tail }
    (rest.1, (d ^^^ c1.kb.headD 0) :: rest.2)

/-- KXOR (R215): the n data bytes are the payload, whose length is n (30_encoding.md R80, R83). -/
def execKxor (n : Nat) (s : State) : Host.Outcome State Fault Refusal :=
  if s.ctx.st = .keystream then
    let x := xorBytes (s.payload.take n) s.ctx
    .next (accept s x.1 x.2)
  else .next (reject .state s)

/-! ### KFIN -/

/-- KFIN (R219): Wipe, no output; leftover keystream is discarded. -/
def execKfin (s : State) : Host.Outcome State Fault Refusal :=
  if s.ctx.st = .keystream then .next (accept s (wipe s.ctx) []) else .next (reject .state s)

end Sys2Proof.Machine
end

