-- ==== Sys2Proof/Machine/RoundCommand.lean ====
section
/-! DEFINITION. The ROUND command (40_core_round.md R105): stateless access to the core round. -/

namespace Sys2Proof.Machine

/-- What ROUND emits for a payload of three words (R105): S'', C', H' and out, each as bytesLE. -/
def roundOutput (cfg : Config) (payload : List Byte) : List Byte :=
  let r := coreRound (wordOperand cfg 0 payload) (wordOperand cfg 1 payload) (wordOperand cfg 2 payload)
  bytesLE r.seed ++ bytesLE r.lcg ++ bytesLE r.hash ++ bytesLE r.out

/-- ROUND (R105): legal in every state; the context is unchanged. -/
def execRound (s : State) : Host.Outcome State Fault Refusal :=
  .next (accept s s.ctx (roundOutput s.cfg s.payload))

end Sys2Proof.Machine
end

