-- ==== Sys2Proof/Machine/Dispatch.lean ====
section
/-! DEFINITION. exec: one arm per instruction, each one call of its meaning. -/

namespace Sys2Proof.Machine

def exec (i : Instr) (s : State) : Host.Outcome State Fault Refusal :=
  match i with
  | .hinit iv sd len => Sys2Proof.Machine.execHinit iv sd len s
  | .hupd n => Sys2Proof.Machine.execHupd n s
  | .hfin => Sys2Proof.Machine.execHfin s
  | .kinit klen nlen => Sys2Proof.Machine.execKinit klen nlen s
  | .kxor n => Sys2Proof.Machine.execKxor n s
  | .kfin => Sys2Proof.Machine.execKfin s
  | .round => Sys2Proof.Machine.execRound s

end Sys2Proof.Machine
end

