-- ==== Sys2Proof/Machine/Port.lean ====
section
/-! DEFINITION. What the block does with the host's next action: take a transaction in, give output bytes up, reset
(00_scope.md R3). -/

namespace Sys2Proof.Machine

/-- Whether a transaction carries the payload its command word announces (30_encoding.md R80, R83). -/
def payloadFits (cfg : Config) (t : Transaction) : Bool :=
  decide (t.payload.length = payloadLength cfg.bytes t.cmd)

/-- A transaction is taken in: its payload is the current one, `rest` is what the host has done after it. -/
def beginTransaction (t : Transaction) (rest : List HostAction) (s : State) : State :=
  { s with payload := t.payload, port := rest }

/-- The host takes up to `count` bytes from the front of the data-out stream (log 5). -/
def takeOutput (count : Nat) (rest : List HostAction) (s : State) : State :=
  { s with dout := s.dout.drop count, port := rest }

/-- Reset (70_reset_and_hazards.md R270): every state element at its reset value, output not yet taken discarded. A
transaction in progress has no effect. What the host does next stays (log 7). -/
def applyReset (rest : List HostAction) (s : State) : State := { State.resetOf s.cfg with port := rest }

/-- The transaction the host sends for an instruction word: the word, and as many zero payload bytes as it announces. -/
def zeroTransaction (cfg : Config) (cmd : BitVec 32) : Transaction :=
  { cmd := cmd, payload := List.replicate (payloadLength cfg.bytes cmd) 0 }

end Sys2Proof.Machine
end

