-- ==== Sys2Proof/Machine/Step.lean ====
section
/-! DEFINITION. One step of the block: it acts on the host's next action (10_state.md R20, R21). A transaction is one
atomic step (70_reset_and_hazards.md R280). -/

namespace Sys2Proof.Machine

/-- `Step(cmd, Payload)` (60_exceptions.md R243): a word that is no instruction is rejected, an instruction runs. -/
def runCommand (cmd : BitVec 32) (s : State) : Host.Outcome State Fault Refusal :=
  match decode cmd with
  | .ok i => exec i s
  | .error e => .next (reject (decodeErrCode e) s)

/-- One step. With nothing at the port the block holds its state (log 4); a transaction whose payload length is not
PL(cmd) has no step (30_encoding.md R83). -/
def step (s : State) : Host.Outcome State Fault Refusal :=
  match s.port with
  | [] => .next s
  | .reset _ :: rest => .next (applyReset rest s)
  | .take count :: rest => .next (takeOutput count rest s)
  | .transaction t :: rest =>
    if payloadFits s.cfg t then runCommand t.cmd (beginTransaction t rest s) else .refused .payloadLength

/-- `s` with an instruction word, and zero payload bytes, as the next transaction at the command port (log 3). -/
def State.withFetchWord (s : State) (nbits w : Nat) : State :=
  { s with port := .transaction (zeroTransaction s.cfg (BitVec.ofNat 32 (w % 2 ^ nbits))) :: s.port }

end Sys2Proof.Machine
end

