-- ==== Sys2Proof/Machine/Assembler.lean ====
section
/-! DEFINITION. What a host sends for a command it writes down: operands to transaction (30_encoding.md R81, R85), the
pseudo-commands (R90 to R93), and the assembler's text (R85). The block itself never sees this. -/

namespace Sys2Proof.Machine

/-- A command or pseudo-command with its operands, as R85 and R90 to R93 list them. -/
inductive AsmCommand
  | hinit (len : Nat) (seed : Option Nat) (iv : Option (List Byte))
  | hupd (bytes : List Byte)
  | hfin
  | kinit (key : List Byte) (nonce : Option (List Byte))
  | kxor (bytes : List Byte)
  | kfin
  | round (s c h : Nat)
  | hash (bytes : List Byte) (len : Nat) (seed : Option Nat) (iv : Option (List Byte))
  | kstream (n : Nat)
deriving DecidableEq, Repr

/-- The largest n of format N (R71). -/
def maxChunk : Nat := 2 ^ 24 - 1

/-- A byte string in pieces of at most `size` bytes, in order; an empty string is one empty piece (R91, R92). Where the
string is cut: full pieces of `size` bytes first, the remainder last. DESIGN CHOICE, log 18; safe. -/
def chunksOf (size : Nat) : Nat → List Byte → List (List Byte)
  | 0, bs => [bs]
  | fuel + 1, bs => if bs.length ≤ size then [bs] else bs.take size :: chunksOf size fuel (bs.drop size)

/-- A transaction for an instruction and its payload; none where the instruction has no encoding. -/
def transactionOf (i : Instr) (payload : List Byte) : Option Transaction :=
  if i.wf then some { cmd := encode i, payload := payload } else none

/-- The bytes of a word operand, none where it does not fit W bits. -/
def wordBytes (cfg : Config) (v : Nat) : Option (List Byte) :=
  if v < 2 ^ cfg.bits then some (bytesLE (BitVec.ofNat cfg.bits v)) else none

/-- HINIT (R85): SD = 1 iff seed= is given, IV = 1 iff iv= is given. The payload carries the iv= bytes as they are given;
when they are not L bytes it is not PL(cmd) bytes long, and `step` refuses it (R83). DESIGN CHOICE, log 17; safe. -/
def sendHinit (cfg : Config) (len : Nat) (seed : Option Nat) (iv : Option (List Byte)) : Option Transaction :=
  match seed with
  | none => transactionOf (.hinit iv.isSome false len) (iv.getD [])
  | some v => (wordBytes cfg v).bind fun b => transactionOf (.hinit iv.isSome true len) (b ++ iv.getD [])

/-- HUPD of any number of bytes (R85, R91). -/
def sendHupd (bytes : List Byte) : Option (List Transaction) :=
  (chunksOf maxChunk bytes.length bytes).mapM fun b => transactionOf (.hupd b.length) b

/-- KXOR of any number of bytes (R85, R92). -/
def sendKxor (bytes : List Byte) : Option (List Transaction) :=
  (chunksOf maxChunk bytes.length bytes).mapM fun b => transactionOf (.kxor b.length) b

/-- The transactions of a command (R81, R85) or pseudo-command (R90 to R93), in order. -/
def assemble (cfg : Config) : AsmCommand → Option (List Transaction)
  | .hinit len seed iv => (sendHinit cfg len seed iv).map fun t => [t]
  | .hupd bytes => sendHupd bytes
  | .hfin => (transactionOf .hfin []).map fun t => [t]
  | .kinit key nonce =>
    (transactionOf (.kinit key.length (nonce.getD []).length) (key ++ nonce.getD [])).map fun t => [t]
  | .kxor bytes => sendKxor bytes
  | .kfin => (transactionOf .kfin []).map fun t => [t]
  | .round s c h => do
    let sb ← wordBytes cfg s
    let cb ← wordBytes cfg c
    let hb ← wordBytes cfg h
    let t ← transactionOf .round (sb ++ cb ++ hb)
    some [t]
  | .hash bytes len seed iv => do
    let first ← sendHinit cfg len seed iv
    let mid ← sendHupd bytes
    let last ← transactionOf .hfin []
    some (first :: mid ++ [last])
  | .kstream n => sendKxor (List.replicate n 0)

/-- The host sends transactions, behind what it has already done. -/
def send (ts : List Transaction) (s : State) : State := { s with port := s.port ++ ts.map .transaction }

/-! ### The assembler's text (R85); its lexical details are log 9 -/

/-- The tokens of a line. -/
inductive Token
  | name (s : String)
  | num (v : Nat)
  | bytes (bs : List Byte)
  | comma
  | equals
deriving DecidableEq, Repr

/-- A digit's value in a base up to 16. -/
def digitValue (base : Nat) (c : Char) : Option Nat :=
  let v := if '0' ≤ c ∧ c ≤ '9' then some (c.toNat - 48)
    else if 'a' ≤ c ∧ c ≤ 'f' then some (c.toNat - 87)
    else if 'A' ≤ c ∧ c ≤ 'F' then some (c.toNat - 55)
    else none
  v.filter (· < base)

/-- The number a non-empty run of digits spells. -/
def digitsValue (base : Nat) : List Char → Option Nat
  | [] => none
  | c :: cs => (c :: cs).foldl (fun acc d => acc.bind fun a => (digitValue base d).map fun v => base * a + v) (some 0)

/-- A hex byte string, two hex digits per byte, first byte first (R85). -/
def hexBytes : List Char → Option (List Byte)
  | [] => some []
  | [_] => none
  | a :: b :: cs => do
    let hi ← digitValue 16 a
    let lo ← digitValue 16 b
    let rest ← hexBytes cs
    some (BitVec.ofNat 8 (16 * hi + lo) :: rest)

/-- A text string as the bytes of its ASCII codes (R85; 93_implementation_defined.md G2). -/
def asciiBytes (cs : List Char) : Option (List Byte) :=
  cs.mapM fun c => if c.toNat < 128 then some (BitVec.ofNat 8 c.toNat) else none

/-- What stands before a closing quotation mark, and what stands after it. -/
def untilQuote : List Char → Option (List Char × List Char)
  | [] => none
  | c :: cs => if c = '"' then some ([], cs) else (untilQuote cs).map fun r => (c :: r.1, r.2)

/-- Whether a character continues a name or a number. -/
def isWordChar (c : Char) : Bool := ('0' ≤ c && c ≤ '9') || ('a' ≤ c && c ≤ 'z') || ('A' ≤ c && c ≤ 'Z')

/-- A bare word: a hexadecimal number behind 0x, a decimal number, or a name. -/
def wordToken (cs : List Char) : Option Token :=
  match cs with
  | '0' :: 'x' :: ds => (digitsValue 16 ds).map .num
  | c :: _ => if '0' ≤ c ∧ c ≤ '9' then (digitsValue 10 cs).map .num else some (.name (String.ofList cs))
  | [] => none

/-- The tokens of a line; each round of `fuel` reads one token or blank, and ';' starts a comment. -/
def tokens : Nat → List Char → Option (List Token)
  | _, [] => some []
  | 0, _ :: _ => none
  | fuel + 1, c :: cs =>
    if c = ';' then some []
    else if c = ' ' ∨ c = '\t' then tokens fuel cs
    else if c = ',' then (tokens fuel cs).map (.comma :: ·)
    else if c = '=' then (tokens fuel cs).map (.equals :: ·)
    else if c = '"' then do
      let r ← untilQuote cs
      let b ← asciiBytes r.1
      let ts ← tokens fuel r.2
      some (.bytes b :: ts)
    else if c = 'x' ∧ cs.head? = some '"' then do
      let r ← untilQuote cs.tail
      let b ← hexBytes r.1
      let ts ← tokens fuel r.2
      some (.bytes b :: ts)
    else if isWordChar c then do
      let t ← wordToken ((c :: cs).takeWhile isWordChar)
      let ts ← tokens fuel ((c :: cs).dropWhile isWordChar)
      some (t :: ts)
    else none

/-- The options `[, seed=<word>] [, iv=<bytes>]` (R85). -/
def hinitOptions : List Token → Option (Option Nat × Option (List Byte))
  | [] => some (none, none)
  | [.comma, .name "seed", .equals, .num v] => some (some v, none)
  | [.comma, .name "iv", .equals, .bytes b] => some (none, some b)
  | [.comma, .name "seed", .equals, .num v, .comma, .name "iv", .equals, .bytes b] => some (some v, some b)
  | _ => none

/-- The command a line of tokens writes (R85, R90, R93). -/
def parseTokens : List Token → Option AsmCommand
  | .name "HINIT" :: .num len :: opts => (hinitOptions opts).map fun o => .hinit len o.1 o.2
  | [.name "HUPD", .bytes b] => some (.hupd b)
  | [.name "HFIN"] => some .hfin
  | [.name "KINIT", .name "key", .equals, .bytes k] => some (.kinit k none)
  | [.name "KINIT", .name "key", .equals, .bytes k, .comma, .name "nonce", .equals, .bytes n] =>
    some (.kinit k (some n))
  | [.name "KXOR", .bytes b] => some (.kxor b)
  | [.name "KFIN"] => some .kfin
  | [.name "ROUND", .num s, .comma, .num c, .comma, .num h] => some (.round s c h)
  | .name "HASH" :: .bytes b :: .comma :: .num len :: opts => (hinitOptions opts).map fun o => .hash b len o.1 o.2
  | [.name "KSTREAM", .num n] => some (.kstream n)
  | _ => none

/-- One line of assembler text (R85): the command it writes. -/
def parseLine (line : String) : Option AsmCommand :=
  (tokens line.toList.length line.toList).bind parseTokens

/-- One line of assembler text (R85): its transactions. A blank line or a bare comment has none. -/
def assembleLine (cfg : Config) (line : String) : Option (List Transaction) :=
  (tokens line.toList.length line.toList).bind fun ts =>
    match ts with
    | [] => some []
    | ts => (parseTokens ts).bind (assemble cfg)

end Sys2Proof.Machine
end

