-- ==== Sys2Proof/Machine/Work.lean ====
section
/-! DEFINITION. The work of a transaction in core rounds (70_reset_and_hazards.md R281). It is a measure the spec gives;
no step reads it, and it is no timing (log 15). -/

namespace Sys2Proof.Machine

/-- How many keystream blocks `n` bytes take when `left` leftover bytes stand in kb (R281, 45_keystream.md R216). -/
def blocksFor (bytes left n : Nat) : Nat := (n - left + (2 * bytes - 1)) / (2 * bytes)

/-- Core rounds of a command that is accepted in state `s`: the rows of R281 but its last. -/
def acceptedRounds (i : Instr) (s : State) : Nat :=
  match i with
  | .hinit iv _ _ => if iv then warmUpRounds * s.cfg.p else 0
  | .hupd n => (s.ctx.hb.length + n) / s.cfg.bytes
  | .hfin => 1 + s.ctx.n * s.cfg.p + s.ctx.n * s.cfg.p
  | .kinit klen nlen => (klen + nlen) / 8 + 1 + 16 * s.cfg.p
  | .kxor n => 4 * blocksFor s.cfg.bytes s.ctx.kb.length n
  | .kfin => 0
  | .round => 1

/-- Core rounds of the transaction with command word `cmd` in state `s` (R281): none for a rejected command, whichever
check of R242 rejects it, an illegal opcode or a reserved bit included. -/
def coreRounds (cmd : BitVec 32) (s : State) : Nat :=
  if check s.cfg cmd s.ctx.st = .ok then
    match decode cmd with
    | .ok i => acceptedRounds i s
    | .error _ => 0
  else 0

end Sys2Proof.Machine
end

