-- ==== Sys2Proof/Safety.lean ====
section
/-! DEFINITION. The terms the claims use: legal builds, the invariant of the block's state, the word stream of a
message, the keystream of a context, and runs of several transactions. -/

namespace Sys2Proof.Machine

/-- A build the spec allows (00_scope.md R6, R8, R10): W is legal by its type, 1 ≤ P ≤ 255, 1 ≤ NMAX ≤ floor(65535 / B).
KS_N ≤ NMAX is asked of builds with a keystream generator, W = 64 (DEDUCED, log 2). -/
abbrev LegalConfig (cfg : Config) : Prop :=
  (1 ≤ cfg.p ∧ cfg.p ≤ 255) ∧ (1 ≤ cfg.nmax ∧ cfg.nmax * cfg.bytes ≤ 65535) ∧ (cfg.width = .w64 → ksN ≤ cfg.nmax)

/-- What holds of the context between transactions (10_state.md R22 to R29, R34, R35; 44_multilane.md R199;
45_keystream.md R221). -/
structure CtxInv {cfg : Config} (c : Context cfg) : Prop where
  /-- There are P lanes (R23). -/
  lanes_length : c.lanes.length = cfg.p
  /-- There are NMAX slots (R24). -/
  hash_length : c.hash.length = cfg.nmax
  /-- `Hash[N..NMAX-1]` stay zero (R24). -/
  hash_tail : ∀ x ∈ c.hash.drop c.n, x = 0
  /-- The holding buffer is below one word (R27). -/
  hb_length : c.hb.length < cfg.bytes
  /-- The leftover keystream is below one block (R34). -/
  kb_length : c.kb.length < 2 * cfg.bytes
  /-- The active lane is a lane (R26). -/
  lane_lt : c.lane < cfg.p
  /-- The IDLE invariant (R35). -/
  idle_zero : c.st = .idle → c = Context.zero cfg
  /-- A live context has 1 ≤ N ≤ NMAX (R24). -/
  live_n : c.st ≠ .idle → 1 ≤ c.n ∧ c.n ≤ cfg.nmax
  /-- A live context's cursor names one of its slots (R25). -/
  live_cur : c.st ≠ .idle → c.cur < c.n
  /-- In EMPTY no message byte has been received (R22). -/
  empty_fresh : c.st = .empty → c.cur = 0 ∧ c.lane = 0 ∧ c.hb = [] ∧ c.fbit = false ∧ c.filled = false
  /-- The firewall state is zero outside KEYSTREAM (44_multilane.md R199). -/
  firewall_zero : c.st ≠ .keystream →
    c.fw = Vector.replicate 2 { seed := 0, lcg := 0 } ∧ c.fh = Vector.replicate 3 0 ∧ c.fc = 0 ∧ c.kb = []
  /-- KEYSTREAM exists only at W = 64 (45_keystream.md R221), with N = KS_N and whole words (R211, R212). -/
  keystream_shape : c.st = .keystream → cfg.width = .w64 ∧ c.n = ksN ∧ c.hb = []

/-- The invariant of the block. -/
structure StateInv (s : State) : Prop where
  legal : LegalConfig s.cfg
  ctx : CtxInv s.ctx

/-- Bit 7 of the last byte, 0 for an empty message (41_word_loader.md R121). -/
def lastBit (m : List Byte) : Bool :=
  match m.getLast? with
  | some b => b.getLsbD 7
  | none => false

/-- The full words of a byte string, first byte first (41_word_loader.md R120). -/
def fullWords (cfg : Config) (m : List Byte) : List (Word cfg.bits) :=
  (List.range (m.length / cfg.bytes)).map fun k => wordOperand cfg k m

/-- The bytes of a byte string that do not make a full word. -/
def leftover (cfg : Config) (m : List Byte) : List Byte := m.drop (m.length / cfg.bytes * cfg.bytes)

/-- The words a whole message feeds to absorption: its full words, then the tail word (41_word_loader.md R125). -/
def messageWords (cfg : Config) (m : List Byte) : List (Word cfg.bits) :=
  fullWords cfg m ++ [tailWord cfg.bits (leftover cfg m) (lastBit m)]

/-- Words absorbed one after another (42_absorption.md R145). -/
def absorbWords {cfg : Config} (ws : List (Word cfg.bits)) (c : Context cfg) : Context cfg :=
  ws.foldl (fun x w => absorbWord w x) c

/-- The first `k` keystream blocks a context generates (45_keystream.md R222). -/
def keystreamBlocks {cfg : Config} : Nat → Context cfg → List Byte
  | 0, _ => []
  | k + 1, c => (genBlock c).2 ++ keystreamBlocks k (genBlock c).1

/-- The HUPD transaction of some message bytes (30_encoding.md R81). -/
def hupdOf (bytes : List Byte) : Transaction := { cmd := encode (.hupd bytes.length), payload := bytes }

/-- The KXOR transaction of some data bytes (R81). -/
def kxorOf (bytes : List Byte) : Transaction := { cmd := encode (.kxor bytes.length), payload := bytes }

/-- The KINIT transaction of a key and a nonce (R81). -/
def kinitOf (key nonce : List Byte) : Transaction :=
  { cmd := encode (.kinit key.length nonce.length), payload := key ++ nonce }

/-- The HINIT transaction with no seed override and no init vector (R81). -/
def hinitOf (len : Nat) : Transaction := { cmd := encode (.hinit false false len), payload := [] }

/-- The HFIN transaction. -/
def hfinOf : Transaction := { cmd := encode .hfin, payload := [] }

/-- The KFIN transaction. -/
def kfinOf : Transaction := { cmd := encode .kfin, payload := [] }

/-- `k` steps, up to the first stop: what the host's `Core.run` does on this machine. -/
def stepN : Nat → State → Host.Outcome State Fault Refusal
  | 0, s => .next s
  | k + 1, s =>
    match step s with
    | .next t => stepN k t
    | .fault f => .fault f
    | .refused r => .refused r

/-- The host sends these transactions, and the block takes as many steps. -/
def runAll (ts : List Transaction) (s : State) : Host.Outcome State Fault Refusal := stepN ts.length (send ts s)

end Sys2Proof.Machine
end

