-- ==== Sys2Proof/Certificates/Slice0/Obligations.lean ====
section
/-! DEFINITION. The statements for the provers. Each docstring names the rules it formalises. The fields `cfg`, `payload`
and `port` of State are the model's own (log 1, log 3); a statement that rests on a choice of the model says so. -/

open Sys2Proof Sys2Proof.Machine

/-! ### Encoding and decoding -/

/-- Decoding the command word of a well-formed instruction gives it back, operands and all (R71, R72, R73, R82). -/
def Obligations.DecodeEncodeRoundTrip : Prop :=
  ∀ i : Instr, i.wf = true → decode (encode i) = .ok i

/-- A command word that decodes is the one word that encodes its instruction, which is well-formed (R71, R74). -/
def Obligations.EncodeDecodeRoundTrip : Prop :=
  ∀ (cmd : BitVec 32) (i : Instr), decode cmd = .ok i → i.wf = true ∧ encode i = cmd

/-- The decoder accepts exactly the words of the rows of spec/opcode_table.json, and gives each the row's instruction
(R73, R74). -/
def Obligations.DecodeMatchesOpcodeTable : Prop :=
  ∀ cmd : BitVec 32,
    (∀ i, decode cmd = .ok i → ∃ row ∈ opcodeTable, row.mnemonic = i.mnemonic ∧ cmd &&& row.mask = row.pattern) ∧
    (∀ row ∈ opcodeTable, cmd &&& row.mask = row.pattern → ∃ i, decode cmd = .ok i ∧ i.mnemonic = row.mnemonic)

/-- A few words written out from R71 and R73, one per opcode, decode to the instruction they stand for. -/
def Obligations.WrittenWordsDecode : Prop :=
  decode 0x01C00010#32 = .ok (.hinit true true 16) ∧
  decode 0x01800010#32 = .ok (.hinit true false 16) ∧
  decode 0x01400010#32 = .ok (.hinit false true 16) ∧
  decode 0x02000003#32 = .ok (.hupd 3) ∧
  decode 0x03000000#32 = .ok .hfin ∧
  decode 0x04008060#32 = .ok (.kinit 128 96) ∧
  decode 0x05000010#32 = .ok (.kxor 16) ∧
  decode 0x06000000#32 = .ok .kfin ∧
  decode 0x07000000#32 = .ok .round

/-- An illegal opcode announces no payload and is rejected with E_OPCODE; only ERR changes (R75). -/
def Obligations.IllegalOpcodeRejected : Prop :=
  ∀ (s : State) (cmd : BitVec 32) (rest : List HostAction),
    opcodeOf cmd = 0 ∨ 8 ≤ opcodeOf cmd →
    s.port = .transaction { cmd := cmd, payload := [] } :: rest →
    payloadLength s.cfg.bytes cmd = 0 ∧
    step s = .next { s with err := .opcode, payload := [], port := rest }

/-- A legal opcode with a reserved bit set is rejected with E_FIELD, whatever the state; HUPD and KXOR have no reserved
bits, so each of their words is an instruction (R74). -/
def Obligations.ReservedBitsRejected : Prop :=
  (∀ (s : State) (t : Transaction) (rest : List HostAction),
    s.port = .transaction t :: rest → t.payload.length = payloadLength s.cfg.bytes t.cmd →
    (opcodeOf t.cmd = 1 ∧ bitField t.cmd 21 16 ≠ 0) ∨ (opcodeOf t.cmd = 4 ∧ bitField t.cmd 23 16 ≠ 0) ∨
      ((opcodeOf t.cmd = 3 ∨ opcodeOf t.cmd = 6 ∨ opcodeOf t.cmd = 7) ∧ bitField t.cmd 23 0 ≠ 0) →
    step s = .next { s with err := .field, payload := [], port := rest }) ∧
  (∀ cmd : BitVec 32,
    (opcodeOf cmd = 2 → decode cmd = .ok (.hupd (bitField cmd 23 0))) ∧
    (opcodeOf cmd = 5 → decode cmd = .ok (.kxor (bitField cmd 23 0))))

/-- The payload length each command's word announces (R73, R80). -/
def Obligations.EncodedPayloadLength : Prop :=
  ∀ (bytes : Nat) (i : Instr), i.wf = true →
    payloadLength bytes (encode i) =
      match i with
      | .hinit iv sd len => (if sd then bytes else 0) + (if iv then len else 0)
      | .hupd n => n
      | .hfin => 0
      | .kinit klen nlen => klen + nlen
      | .kxor n => n
      | .kfin => 0
      | .round => 3 * bytes

/-! ### Steps -/

/-- A step on a transaction whose payload fits and whose word decodes is exec of that instruction, with the payload
taken in and the transaction gone from the port (R82, R243). -/
def Obligations.StepRunsDecodedInstruction : Prop :=
  ∀ (s : State) (t : Transaction) (rest : List HostAction) (i : Instr),
    s.port = .transaction t :: rest → t.payload.length = payloadLength s.cfg.bytes t.cmd → decode t.cmd = .ok i →
    step s = exec i { s with payload := t.payload, port := rest }

/-- A transaction whose payload has another length than PL(cmd) has no step (R83). -/
def Obligations.PayloadMismatchRefused : Prop :=
  ∀ (s : State) (t : Transaction) (rest : List HostAction),
    s.port = .transaction t :: rest → t.payload.length ≠ payloadLength s.cfg.bytes t.cmd →
    step s = .refused .payloadLength

/-- The step of R243: when Check (R242) gives a code, only ERR changes; when it gives OK, the command's rule runs, which
ends with ERR = 0, leaves the payload consumed, and only appends to the output. -/
def Obligations.StepFollowsCheck : Prop :=
  ∀ (s : State) (t : Transaction) (rest : List HostAction),
    s.port = .transaction t :: rest → t.payload.length = payloadLength s.cfg.bytes t.cmd →
    (check s.cfg t.cmd s.ctx.st ≠ .ok →
      step s = .next { s with err := check s.cfg t.cmd s.ctx.st, payload := [], port := rest }) ∧
    (check s.cfg t.cmd s.ctx.st = .ok →
      ∃ (i : Instr) (c : Context s.cfg) (out : List Byte),
        decode t.cmd = .ok i ∧
        exec i { s with payload := t.payload, port := rest } =
          .next { s with ctx := c, err := .ok, dout := s.dout ++ out, payload := [], port := rest } ∧
        step s = .next { s with ctx := c, err := .ok, dout := s.dout ++ out, payload := [], port := rest })

/-- The MODEL'S CHOICE, log 4 and log 5: with nothing at the port the state holds, and a host that takes output changes
only the data-out stream. -/
def Obligations.HostSideStepsKeepTheBlock : Prop :=
  (∀ s : State, s.port = [] → step s = .next s) ∧
  (∀ (s : State) (k : Nat) (rest : List HostAction), s.port = .take k :: rest →
    ∃ taken, taken.length = min k s.dout.length ∧
      ∃ left, s.dout = taken ++ left ∧ step s = .next { s with dout := left, port := rest })

/-- Asserting reset puts every state element at its reset value, discards output not yet taken, has no other effect
whatever transaction was in progress, and leaves PARAM0 and PARAM1 (R270). -/
def Obligations.ResetAbandonsAndZeroes : Prop :=
  ∀ (s : State) (inProgress : Option Transaction) (rest : List HostAction),
    s.port = .reset inProgress :: rest →
    ∃ t, step s = .next t ∧ t.ctx.st = .idle ∧ t.err = .ok ∧ t.ctx.n = 0 ∧
      t.ctx.lanes = List.replicate s.cfg.p { seed := 0, lcg := 0 } ∧ t.ctx.hash = List.replicate s.cfg.nmax 0 ∧
      t.ctx.fw = Vector.replicate 2 { seed := 0, lcg := 0 } ∧ t.ctx.fh = Vector.replicate 3 0 ∧
      t.ctx.cur = 0 ∧ t.ctx.lane = 0 ∧ t.ctx.fc = 0 ∧ t.ctx.fbit = false ∧ t.ctx.filled = false ∧
      t.ctx.hb = [] ∧ t.ctx.kb = [] ∧ t.ctx = Context.zero t.cfg ∧ t.dout = [] ∧
      readRegister t 1 = readRegister s 1 ∧ readRegister t 2 = readRegister s 2

/-- The reset value of every state element, for every build (R37). -/
def Obligations.ResetStateValues : Prop :=
  ∀ cfg : Config,
    let s := State.resetOf cfg
    s.ctx.st = .idle ∧ s.err = .ok ∧ s.ctx.n = 0 ∧
    s.ctx.lanes = List.replicate cfg.p { seed := 0, lcg := 0 } ∧ s.ctx.hash = List.replicate cfg.nmax 0 ∧
    s.ctx.cur = 0 ∧ s.ctx.lane = 0 ∧ s.ctx.hb = [] ∧ s.ctx.fbit = false ∧ s.ctx.filled = false ∧
    s.ctx.fw = Vector.replicate 2 { seed := 0, lcg := 0 } ∧ s.ctx.fh = Vector.replicate 3 0 ∧ s.ctx.fc = 0 ∧
    s.ctx.kb = [] ∧ s.dout = [] ∧
    readRegister s 0 = 0 ∧ readRegister s 1 = param0Word cfg ∧ readRegister s 2 = param1Word cfg

/-- Every legal build satisfies the invariant at reset (R35, R270), and so does State.reset, whose build is the MODEL'S CHOICE,
log 1. -/
def Obligations.ResetSatisfiesInvariant : Prop :=
  (∀ cfg : Config, LegalConfig cfg → StateInv (State.resetOf cfg)) ∧ StateInv State.reset

/-- Every step keeps the invariant: the IDLE invariant (R35), the ranges of N, cur, lane, hb and kb (R24 to R27, R34),
the zero words above N (R24), the unused firewall (R199), KEYSTREAM only at W = 64 (R221). -/
def Obligations.StepKeepsInvariant : Prop :=
  ∀ s t : State, StateInv s → step s = .next t → StateInv t

/-- No step faults, and the only stop is a transaction whose payload does not fit (R83, R240, R245). -/
def Obligations.StepStopsOnlyOnBadPayload : Prop :=
  ∀ s : State,
    (∀ f, step s ≠ .fault f) ∧
    (∀ r, step s = .refused r → r = .payloadLength ∧
      ∃ (t : Transaction) (rest : List HostAction),
        s.port = .transaction t :: rest ∧ t.payload.length ≠ payloadLength s.cfg.bytes t.cmd)

/-- The layout of PARAM0 and PARAM1 on a legal build (R32, R33), and register 3 reads 0. -/
def Obligations.ParamRegisterLayout : Prop :=
  ∀ s : State, LegalConfig s.cfg →
    bitField (readRegister s 1) 7 0 = s.cfg.bits ∧ bitField (readRegister s 1) 15 8 = s.cfg.p ∧
    bitField (readRegister s 1) 23 16 = (if s.cfg.width = .w64 then 16 else 0) ∧
    bitField (readRegister s 1) 31 24 = 0 ∧
    bitField (readRegister s 2) 15 0 = s.cfg.nmax ∧ bitField (readRegister s 2) 31 16 = 0 ∧
    readRegister s 3 = 0

/-- The layout of STATUS (R31), with the values of ST (R22) and ERR (R241). -/
def Obligations.StatusRegisterLayout : Prop :=
  ∀ s : State,
    bitField (readRegister s 0) 1 0 =
      (match s.ctx.st with | .idle => 0 | .empty => 1 | .filling => 2 | .keystream => 3) ∧
    bitField (readRegister s 0) 2 2 = (if s.ctx.filled then 1 else 0) ∧
    bitField (readRegister s 0) 3 3 = 0 ∧
    bitField (readRegister s 0) 7 4 =
      (match s.err with
       | .ok => 0 | .opcode => 1 | .field => 2 | .state => 3 | .outlen => 4 | .keylen => 5 | .noncelen => 6
       | .width => 7) ∧
    bitField (readRegister s 0) 31 8 = 0

/-! ### The core round and bytes -/

/-- The multiplier is 2C + 1, so S ↦ S1 is a bijection for each C, and S1 = 0 exactly when S = 0; S1 is what the round
adds to Lcg (R102). -/
def Obligations.RoundMultiplierIsOdd : Prop :=
  ∀ (w : Nat) (c h : Word w),
    c - ~~~c = 2 * c + 1 ∧
    (∀ s, (coreRound s c h).lcg = c + s * (2 * c + 1)) ∧
    Function.Bijective (fun s => (coreRound s c h).lcg - c) ∧
    (∀ s, (coreRound s c h).lcg - c = 0 ↔ s = 0)

/-- out does not depend on H; the new Seed and the new HashWord do (R103). -/
def Obligations.RoundOutIgnoresHash : Prop :=
  ∀ (w : Nat) (s c h h' : Word w),
    (coreRound s c h).out = (c + s * (2 * c + 1)) ^^^ rot (s * (2 * c + 1)) ∧
    (coreRound s c h).out = (coreRound s c h').out ∧
    (h ≠ h' → (coreRound s c h).hash ≠ (coreRound s c h').hash ∧ (coreRound s c h).seed ≠ (coreRound s c h').seed)

/-- The zero-state constants are the state after five rounds from zero, and have the values of R107's table. -/
def Obligations.ZeroStateConstants : Prop :=
  (∀ w, zeroState w =
    carryRound (carryRound (carryRound (carryRound (carryRound { seed := 0, lcg := 0, hash := 0 }))))) ∧
  zeroState 8 = { seed := 0xA6, lcg := 0xC2, hash := 0x8C } ∧
  zeroState 16 = { seed := 0xED62, lcg := 0x42F2, hash := 0x4992 } ∧
  zeroState 32 = { seed := 0x33FDE2C5, lcg := 0x917EDB62, hash := 0x30B8E6CF } ∧
  zeroState 64 = { seed := 0xAFE42BECCD83B263, lcg := 0x7C9D1F431C71C6F2, hash := 0x71C71C49D1F27493 }

/-- The corner cases of the round at W = 64 (R108). -/
def Obligations.RoundCornerCases : Prop :=
  (∀ c h : Word 64, coreRound 0 c h =
    { seed := h + 0xAAAAAAAAAAAAAAAA, lcg := c, hash := h + 0xAAAAAAAAAAAAAAAA, out := c }) ∧
  coreRound (0 : Word 64) 0 0 = { seed := 0xAAAAAAAAAAAAAAAA, lcg := 0, hash := 0xAAAAAAAAAAAAAAAA, out := 0 } ∧
  coreRound (0xFFFFFFFFFFFFFFFF : Word 64) 0xFFFFFFFFFFFFFFFF 0xFFFFFFFFFFFFFFFF =
    { seed := 0xAAAAAAABAAAAAAA8, lcg := 0, hash := 0xAAAAAAABAAAAAAA9, out := 0x0000000100000000 } ∧
  (∀ s h : Word 64, (coreRound s 0x8000000000000000 h).lcg - 0x8000000000000000 = s) ∧
  coreRound (0xFFFFFFFFFFFFFFFF : Word 64) 0 0x5555555555555556 =
    { seed := 0, lcg := 0xFFFFFFFFFFFFFFFF, hash := 0xFFFFFFFFFFFFFFFF, out := 0 }

/-- rot is the rotation by half the word, and left or right gives the same value (R14). -/
def Obligations.HalfWordRotation : Prop :=
  ∀ (width : Width) (a : Word width.bits),
    rot a = a.rotateLeft (width.bits / 2) ∧ rot a = a.rotateRight (width.bits / 2) ∧ rot (rot a) = a

/-- Words and their bytes, least significant first, are the same thing (R15, R52, R53). -/
def Obligations.WordBytesRoundTrip : Prop :=
  ∀ width : Width,
    (∀ v : Word width.bits, (bytesLE v).length = width.bits / 8 ∧ le width.bits (bytesLE v) = v ∧
      ∀ i, i < width.bits / 8 → (bytesLE v)[i]? = some (v.extractLsb' (8 * i) 8)) ∧
    (∀ bs : List Byte, bs.length = width.bits / 8 → bytesLE (le width.bits bs) = bs)

/-! ### The word loader -/

/-- The tail word: the leftover bytes, the sentinel 1 or 2 in the byte after them, zero bytes above (R122). -/
def Obligations.TailWordLayout : Prop :=
  ∀ (width : Width) (hb : List Byte) (fbit : Bool), hb.length < width.bits / 8 →
    bytesLE (tailWord width.bits hb fbit) =
      hb ++ [if fbit then 2 else 1] ++ List.replicate (width.bits / 8 - 1 - hb.length) 0

/-- The words a message feeds to absorption determine the message: the tail word's highest set bit stands at
8r + fbit, its low r bytes are the last r message bytes, each earlier word is B bytes of the message in order, and
different messages give different word streams (R127). -/
def Obligations.WordStreamInjective : Prop :=
  ∀ cfg : Config,
    (∀ (hb : List Byte) (fbit : Bool), hb.length < cfg.bytes →
      (tailWord cfg.bits hb fbit).toNat ≠ 0 ∧
      Nat.log2 (tailWord cfg.bits hb fbit).toNat = 8 * hb.length + fbit.toNat ∧
      (bytesLE (tailWord cfg.bits hb fbit)).take hb.length = hb) ∧
    (∀ m : List Byte, m = (fullWords cfg m).flatMap bytesLE ++ leftover cfg m ∧
      (messageWords cfg m).getLast? = some (tailWord cfg.bits (leftover cfg m) (lastBit m)) ∧
      (leftover cfg m).length < cfg.bytes) ∧
    (∀ m m' : List Byte, m ≠ m' → messageWords cfg m ≠ messageWords cfg m')

/-- Feeding a message byte by byte from an empty loader and flushing absorbs exactly the word stream of the message, its
full words and its tail word, and then runs the blank rounds (R120, R125, R147, R171). -/
def Obligations.FlushAbsorbsWordStream : Prop :=
  ∀ (cfg : Config) (c : Context cfg) (m : List Byte), c.hb = [] → c.fbit = false →
    flush (updateBytes c m) =
      { repeatN blankRound c.n (absorbWords (messageWords cfg m) c) with fbit := lastBit m }

/-- Any split of message bytes into HUPD commands leaves the same state as one HUPD of them all (R148). -/
def Obligations.HupdSplitIndependent : Prop :=
  ∀ (s : State) (pieces : List (List Byte)), s.port = [] → pieces ≠ [] → pieces.flatten.length < 2 ^ 24 →
    runAll (pieces.map hupdOf) s = runAll [hupdOf pieces.flatten] s

/-! ### HINIT and HUPD -/

/-- HINIT without an init vector: every lane at (S5 xor seed, L5), Hash = [H5, 0, …], N = L / B, the loader and indices at
zero; firewall and kb unchanged (R141, R142, R143). -/
def Obligations.HinitWithoutIvStarts : Prop :=
  ∀ (s : State) (sd : Bool) (len : Nat),
    s.ctx.st = .idle → len ≠ 0 → len % s.cfg.bytes = 0 → len ≤ s.cfg.nmax * s.cfg.bytes →
    exec (.hinit false sd len) s =
      .next { s with
        ctx := { s.ctx with
          st := .empty
          n := len / s.cfg.bytes
          lanes := List.replicate s.cfg.p
            { seed := (zeroState s.cfg.bits).seed ^^^ (if sd then le s.cfg.bits (s.payload.take s.cfg.bytes) else 0)
              lcg := (zeroState s.cfg.bits).lcg }
          hash := (zeroState s.cfg.bits).hash :: List.replicate (s.cfg.nmax - 1) 0
          cur := 0
          lane := 0
          hb := []
          fbit := false
          filled := false }
        err := .ok
        payload := [] }

/-- HINIT with an init vector: Hash[0..N-1] is the vector and the rest zero, then each lane in order starts from
(seed, 0) and runs five rounds on the Hash[0] that the lane before it left (R141, R142, R144). -/
def Obligations.HinitWithIvStarts : Prop :=
  ∀ (s : State) (sd : Bool) (len : Nat),
    s.ctx.st = .idle → len ≠ 0 → len % s.cfg.bytes = 0 → len ≤ s.cfg.nmax * s.cfg.bytes →
    let iv := (s.payload.drop (if sd then s.cfg.bytes else 0)).take len
    let seed : Word s.cfg.bits := if sd then le s.cfg.bits (s.payload.take s.cfg.bytes) else 0
    ∃ c : Context s.cfg,
      exec (.hinit true sd len) s = .next { s with ctx := c, err := .ok, payload := [] } ∧
      c.st = .empty ∧ c.n = len / s.cfg.bytes ∧ c.cur = 0 ∧ c.lane = 0 ∧ c.hb = [] ∧ c.fbit = false ∧
      c.filled = false ∧ c.fw = s.ctx.fw ∧ c.fh = s.ctx.fh ∧ c.fc = s.ctx.fc ∧ c.kb = s.ctx.kb ∧
      c.lanes.length = s.cfg.p ∧ c.hash.length = s.cfg.nmax ∧
      (∀ i, 1 ≤ i → i < c.n → hashAt c i = le s.cfg.bits ((iv.drop (i * s.cfg.bytes)).take s.cfg.bytes)) ∧
      (∀ i, c.n ≤ i → hashAt c i = 0) ∧
      ∃ h : Nat → Word s.cfg.bits,
        h 0 = le s.cfg.bits (iv.take s.cfg.bytes) ∧ hashAt c 0 = h s.cfg.p ∧
        ∀ j, j < s.cfg.p →
          let t := repeatN carryRound 5 { seed := seed, lcg := 0, hash := h j }
          laneAt c j = { seed := t.seed, lcg := t.lcg } ∧ h (j + 1) = t.hash

/-- The rejections of the two INIT commands in IDLE, in the order of R242: E_OUTLEN for HINIT (R141); E_WIDTH, then
E_KEYLEN, then E_NONCELEN for KINIT (R210, R211, R221). Only ERR changes, and the payload is discarded. -/
def Obligations.InitLengthsRejected : Prop :=
  ∀ s : State, s.ctx.st = .idle →
    (∀ (iv sd : Bool) (len : Nat),
      len = 0 ∨ len % s.cfg.bytes ≠ 0 ∨ s.cfg.nmax * s.cfg.bytes < len →
      exec (.hinit iv sd len) s = .next { s with err := .outlen, payload := [] }) ∧
    (∀ klen nlen : Nat,
      (s.cfg.width ≠ .w64 → exec (.kinit klen nlen) s = .next { s with err := .width, payload := [] }) ∧
      (s.cfg.width = .w64 → (klen < 16 ∨ 128 < klen ∨ klen % 8 ≠ 0) →
        exec (.kinit klen nlen) s = .next { s with err := .keylen, payload := [] }) ∧
      (s.cfg.width = .w64 → 16 ≤ klen → klen ≤ 128 → klen % 8 = 0 → (96 < nlen ∨ nlen % 8 ≠ 0) →
        exec (.kinit klen nlen) s = .next { s with err := .noncelen, payload := [] }))

/-- With P = 1, no seed and an all-zero init vector, HINIT leaves exactly the state that HINIT without one leaves
(R144). -/
def Obligations.ZeroIvMatchesShortcut : Prop :=
  ∀ (s : State) (len : Nat), s.cfg.p = 1 →
    exec (.hinit true false len) { s with payload := List.replicate len 0 } =
      exec (.hinit false false len) { s with payload := [] }

/-- HINIT with SD = 1 and a zero seed is HINIT with SD = 0 (R141). -/
def Obligations.ZeroSeedMatchesNoSeed : Prop :=
  ∀ (s : State) (iv : Bool) (len : Nat) (rest : List Byte),
    exec (.hinit iv true len) { s with payload := List.replicate s.cfg.bytes 0 ++ rest } =
      exec (.hinit iv false len) { s with payload := rest }

/-- HUPD in EMPTY or FILLING runs UpdateBytes on its payload, moves to FILLING when n ≥ 1 and else keeps ST; nothing else
changes but ERR (R146). -/
def Obligations.HupdAbsorbsPayload : Prop :=
  ∀ (s : State) (n : Nat), s.ctx.st = .empty ∨ s.ctx.st = .filling → s.payload.length = n →
    exec (.hupd n) s =
      .next { s with
        ctx := { updateBytes s.ctx s.payload with st := if n = 0 then s.ctx.st else .filling }
        err := .ok
        payload := [] }

/-- What HUPD leaves, in closed form: the bytes below a word stay in hb; cursor and active lane advance by the number of
words completed; FILLED is set when one of them lands in slot N - 1; slots no word lands in, and the firewall and kb, are
unchanged (R145, R147, R149, R28, R281). -/
def Obligations.HupdCounters : Prop :=
  ∀ s : State, StateInv s → s.ctx.st = .empty ∨ s.ctx.st = .filling →
    let words := (s.ctx.hb.length + s.payload.length) / s.cfg.bytes
    ∃ c : Context s.cfg,
      exec (.hupd s.payload.length) s = .next { s with ctx := c, err := .ok, payload := [] } ∧
      c.hb = leftover s.cfg (s.ctx.hb ++ s.payload) ∧
      c.cur = (s.ctx.cur + words) % s.ctx.n ∧ c.lane = (s.ctx.lane + words) % s.cfg.p ∧
      c.filled = (s.ctx.filled || decide (s.ctx.n ≤ s.ctx.cur + words)) ∧
      c.fbit = (if s.payload = [] then s.ctx.fbit else lastBit s.payload) ∧
      (∀ i, (∀ k, k < words → i ≠ (s.ctx.cur + k) % s.ctx.n) → hashAt c i = hashAt s.ctx i) ∧
      c.n = s.ctx.n ∧ c.fw = s.ctx.fw ∧ c.fh = s.ctx.fh ∧ c.fc = s.ctx.fc ∧ c.kb = s.ctx.kb

/-- AbsorbWord: the word goes into the active lane's Lcg, one round runs on Hash[cur], only lane `lane` and slot `cur`
change, FILLED is set exactly when the slot was N - 1, and cursor and active lane advance by one (R145). -/
def Obligations.AbsorbWordFrame : Prop :=
  ∀ (cfg : Config) (c : Context cfg) (m : Word cfg.bits),
    c.lane < c.lanes.length → c.cur < c.n → c.n ≤ c.hash.length →
    let c' := absorbWord m c
    let r := coreRound (laneAt c c.lane).seed ((laneAt c c.lane).lcg ^^^ m) (hashAt c c.cur)
    laneAt c' c.lane = { seed := r.seed, lcg := r.lcg } ∧ (∀ j, j ≠ c.lane → laneAt c' j = laneAt c j) ∧
    hashAt c' c.cur = r.hash ∧ (∀ i, i ≠ c.cur → hashAt c' i = hashAt c i) ∧
    c'.filled = (c.filled || decide (c.cur = c.n - 1)) ∧
    c'.cur = (c.cur + 1) % c.n ∧ c'.lane = (c.lane + 1) % cfg.p ∧
    c'.st = c.st ∧ c'.n = c.n ∧ c'.hb = c.hb ∧ c'.fbit = c.fbit ∧ c'.fw = c.fw ∧ c'.fh = c.fh ∧ c'.fc = c.fc ∧
    c'.kb = c.kb

/-! ### HFIN -/

/-- HFIN in EMPTY or FILLING emits the squeeze of the flushed context, N words of B bytes, and leaves the wiped context
and ERR = 0; nothing else changes (R170, R174, R176). -/
def Obligations.HfinEmitsDigestAndWipes : Prop :=
  ∀ s : State, s.ctx.st = .empty ∨ s.ctx.st = .filling →
    ∃ out, out = (squeeze (flush s.ctx)).2 ∧ out.length = s.ctx.n * s.cfg.bytes ∧
      exec .hfin s =
        .next { s with ctx := Context.zero s.cfg, err := .ok, dout := s.dout ++ out, payload := [] }

/-- After Flush, cursor and active lane stand at the number of words fed, modulo N and modulo P (R178). -/
def Obligations.CursorAfterFlush : Prop :=
  ∀ (cfg : Config) (c : Context cfg) (m : List Byte),
    c.hb = [] → c.cur = 0 → c.lane = 0 → 1 ≤ c.n → 1 ≤ cfg.p →
    (flush (updateBytes c m)).cur = (m.length / cfg.bytes + 1) % c.n ∧
    (flush (updateBytes c m)).lane = (m.length / cfg.bytes + 1) % cfg.p

/-- A sweep runs its lanes one after another: running lanes `a` then lanes `b` is running `b` on the hash word `a` left,
and the outs are XORed; one lane alone is one round (R172, R174, R191). -/
def Obligations.SweepRunsLanesInOrder : Prop :=
  ∀ (w : Nat) (a b : List (Lane w)) (l : Lane w) (h : Word w),
    (sweepLanes (a ++ b) h).lanes = (sweepLanes a h).lanes ++ (sweepLanes b (sweepLanes a h).hash).lanes ∧
    (sweepLanes (a ++ b) h).hash = (sweepLanes b (sweepLanes a h).hash).hash ∧
    (sweepLanes (a ++ b) h).out = (sweepLanes a h).out ^^^ (sweepLanes b (sweepLanes a h).hash).out ∧
    sweepLanes [l] h =
      { lanes := [{ seed := (coreRound l.seed l.lcg h).seed, lcg := (coreRound l.seed l.lcg h).lcg }]
        hash := (coreRound l.seed l.lcg h).hash
        out := (coreRound l.seed l.lcg h).out }

/-- N blank rounds bring the cursor round once: the slot k places on is swept once, from the word it held, by the lanes as
k blank rounds left them; slots above N are unchanged (R172, R173). -/
def Obligations.BlankRoundsTouchEverySlot : Prop :=
  ∀ (cfg : Config) (c : Context cfg), c.cur < c.n → c.n ≤ c.hash.length →
    (repeatN blankRound c.n c).cur = c.cur ∧
    (∀ k, k < c.n →
      hashAt (repeatN blankRound c.n c) ((c.cur + k) % c.n) =
        (sweepLanes (repeatN blankRound k c).lanes (hashAt c ((c.cur + k) % c.n))).hash) ∧
    (∀ i, c.n ≤ i → hashAt (repeatN blankRound c.n c) i = hashAt c i)

/-- The digest of a message is a function of the message, the output length, the seed, the init vector, W and P alone: two
idle blocks with the same W and P, whatever their NMAX, history and pending output, emit the same bytes (R177). -/
def Obligations.DigestIndependentOfHistory : Prop :=
  ∀ (s1 s2 : State) (iv sd : Bool) (len : Nat) (operand m : List Byte),
    StateInv s1 → StateInv s2 → s1.ctx.st = .idle → s2.ctx.st = .idle → s1.port = [] → s2.port = [] →
    s1.cfg.width = s2.cfg.width → s1.cfg.p = s2.cfg.p →
    len ≠ 0 → len < 2 ^ 16 → len % s1.cfg.bytes = 0 →
    len ≤ s1.cfg.nmax * s1.cfg.bytes → len ≤ s2.cfg.nmax * s2.cfg.bytes →
    operand.length = (if sd then s1.cfg.bytes else 0) + (if iv then len else 0) → m.length < 2 ^ 24 →
    let ts := [{ cmd := encode (.hinit iv sd len), payload := operand }, hupdOf m, hfinOf]
    ∃ t1 t2 digest, digest.length = len ∧
      runAll ts s1 = .next t1 ∧ t1.dout = s1.dout ++ digest ∧
      runAll ts s2 = .next t2 ∧ t2.dout = s2.dout ++ digest

/-! ### The keystream generator -/

/-- KINIT with legal lengths: key‖nonce is absorbed and flushed in a fresh context of 16 words, the firewall starts from
the zero-state constants, kb is empty; cursor, active lane and FILLED follow from the lengths (R210, R212, R213). -/
def Obligations.KinitStartsKeystream : Prop :=
  ∀ (s : State) (klen nlen : Nat),
    s.ctx.st = .idle → s.cfg.width = .w64 → 16 ≤ klen → klen ≤ 128 → klen % 8 = 0 → nlen ≤ 96 → nlen % 8 = 0 →
    s.payload.length = klen + nlen →
    let z := zeroState s.cfg.bits
    let fresh : Context s.cfg := { s.ctx with
      n := 16
      lanes := List.replicate s.cfg.p { seed := z.seed, lcg := z.lcg }
      hash := z.hash :: List.replicate (s.cfg.nmax - 1) 0
      cur := 0
      lane := 0
      hb := []
      fbit := false
      filled := false }
    ∃ c : Context s.cfg,
      exec (.kinit klen nlen) s = .next { s with ctx := c, err := .ok, payload := [] } ∧
      c = { flush (updateBytes fresh s.payload) with
        st := .keystream
        fw := Vector.replicate 2 { seed := z.seed, lcg := z.lcg }
        fh := #v[z.hash, 0, 0]
        fc := 0
        kb := [] } ∧
      c.n = 16 ∧ c.hb = [] ∧ c.fbit = lastBit s.payload ∧
      c.cur = ((klen + nlen) / 8 + 1) % 16 ∧ c.lane = ((klen + nlen) / 8 + 1) % s.cfg.p ∧
      c.filled = decide (120 ≤ klen + nlen)

/-- KXOR emits its data XOR the next bytes of the context's keystream, leftover bytes first, and leaves a context whose
keystream is the rest (R215, R216, R222). -/
def Obligations.KxorEmitsDataXorKeystream : Prop :=
  ∀ (s : State) (n : Nat), s.ctx.st = .keystream → s.payload.length = n →
    ∃ c : Context s.cfg,
      exec (.kxor n) s =
        .next { s with
          ctx := c
          err := .ok
          dout := s.dout ++ List.zipWith (· ^^^ ·) s.payload (s.ctx.kb ++ keystreamBlocks n s.ctx)
          payload := [] } ∧
      ∀ k, c.kb ++ keystreamBlocks k c <+: (s.ctx.kb ++ keystreamBlocks (k + n) s.ctx).drop n

/-- The keystream of a context: from a context with no leftover bytes, as KINIT leaves it, any sequence of KXOR commands
emits the data XOR GenBlock_0 ++ GenBlock_1 ++ …, each byte at the offset of the bytes before it (R222). -/
def Obligations.KeystreamOfContext : Prop :=
  ∀ (s : State) (pieces : List (List Byte)),
    s.ctx.st = .keystream → s.ctx.kb = [] → s.port = [] → (∀ p ∈ pieces, p.length < 2 ^ 24) →
    ∃ t, runAll (pieces.map kxorOf) s = .next t ∧
      t.dout = s.dout ++
        List.zipWith (· ^^^ ·) pieces.flatten (keystreamBlocks pieces.flatten.length s.ctx)

/-- Any split of data bytes into KXOR commands emits the same bytes and leaves the same state as one KXOR of them all
(R217). -/
def Obligations.KxorSplitIndependent : Prop :=
  ∀ (s : State) (pieces : List (List Byte)), s.port = [] → pieces ≠ [] → pieces.flatten.length < 2 ^ 24 →
    runAll (pieces.map kxorOf) s = runAll [kxorOf pieces.flatten] s

/-- Encrypting in one context and encrypting the result in a second one with the same key and nonce gives the plaintext
back, for any chunking of either side (R218). -/
def Obligations.KxorSelfInverse : Prop :=
  ∀ (s : State) (key nonce : List Byte) (pieces : List (List Byte)),
    s.port = [] → s.ctx.st = .idle → s.cfg.width = .w64 →
    16 ≤ key.length → key.length ≤ 128 → key.length % 8 = 0 → nonce.length ≤ 96 → nonce.length % 8 = 0 →
    (∀ p ∈ pieces, p.length < 2 ^ 24) →
    ∃ t cipher,
      runAll (kinitOf key nonce :: pieces.map kxorOf ++ [kfinOf]) s = .next t ∧ t.dout = s.dout ++ cipher ∧
      ∀ pieces' : List (List Byte), (∀ p ∈ pieces', p.length < 2 ^ 24) → pieces'.flatten = cipher →
        ∃ u, runAll (kinitOf key nonce :: pieces'.map kxorOf ++ [kfinOf]) t = .next u ∧
          u.dout = t.dout ++ pieces.flatten

/-- What KXOR leaves, in closed form: blocks are generated only when needed; each moves the cursor and the active lane by
two and the history cursor by two; ST, N, hb, fbit and FILLED are unchanged, and KXOR of nothing changes nothing
(R214, R215, R216, R281). -/
def Obligations.KxorCounters : Prop :=
  ∀ s : State, StateInv s → s.ctx.st = .keystream →
    let blocks := blocksFor s.cfg.bytes s.ctx.kb.length s.payload.length
    ∃ (c : Context s.cfg) (out : List Byte),
      exec (.kxor s.payload.length) s =
        .next { s with ctx := c, err := .ok, dout := s.dout ++ out, payload := [] } ∧
      out.length = s.payload.length ∧
      c.kb.length + s.payload.length = s.ctx.kb.length + 16 * blocks ∧ c.kb.length ≤ 15 ∧
      c.cur = (s.ctx.cur + 2 * blocks) % s.ctx.n ∧ c.lane = (s.ctx.lane + 2 * blocks) % s.cfg.p ∧
      c.fc.val = (s.ctx.fc.val + 2 * blocks) % 3 ∧
      c.st = s.ctx.st ∧ c.n = s.ctx.n ∧ c.hb = s.ctx.hb ∧ c.fbit = s.ctx.fbit ∧ c.filled = s.ctx.filled ∧
      (s.payload = [] → c = s.ctx ∧ out = [])

/-- KFIN in KEYSTREAM emits nothing and leaves the wiped context and ERR = 0 (R219). -/
def Obligations.KfinWipes : Prop :=
  ∀ s : State, s.ctx.st = .keystream →
    exec .kfin s = .next { s with ctx := Context.zero s.cfg, err := .ok, payload := [] }

/-- FirewallStep: o goes into FL[f], lane f runs one round on FH[fc], the other lane, the other history slots and the main
state are unchanged, fc advances modulo 3, and k is the round's out (R196). -/
def Obligations.FirewallStepFrame : Prop :=
  ∀ (cfg : Config) (c : Context cfg) (f : Fin 2) (o : Word cfg.bits),
    let c' := (firewallStep f o c).1
    let r := coreRound c.fw[f].seed (c.fw[f].lcg ^^^ o) c.fh[c.fc]
    (firewallStep f o c).2 = r.out ∧
    c'.fw[f] = { seed := r.seed, lcg := r.lcg } ∧ (∀ g : Fin 2, g ≠ f → c'.fw[g] = c.fw[g]) ∧
    c'.fh[c.fc] = r.hash ∧ (∀ i : Fin 3, i ≠ c.fc → c'.fh[i] = c.fh[i]) ∧
    c'.fc.val = (c.fc.val + 1) % 3 ∧
    c'.st = c.st ∧ c'.n = c.n ∧ c'.lanes = c.lanes ∧ c'.hash = c.hash ∧ c'.cur = c.cur ∧ c'.lane = c.lane ∧
    c'.hb = c.hb ∧ c'.fbit = c.fbit ∧ c'.filled = c.filled ∧ c'.kb = c.kb

/-- Below W = 64 there is no keystream generator: KINIT in IDLE is rejected with E_WIDTH, KXOR and KFIN always with E_STATE,
and PARAM0.KSN reads 0 (R221). -/
def Obligations.KeystreamOnlyAtWidth64 : Prop :=
  ∀ s : State, StateInv s → s.cfg.width ≠ .w64 →
    (∀ klen nlen, s.ctx.st = .idle →
      exec (.kinit klen nlen) s = .next { s with err := .width, payload := [] }) ∧
    (∀ klen nlen, s.ctx.st ≠ .idle →
      exec (.kinit klen nlen) s = .next { s with err := .state, payload := [] }) ∧
    (∀ n, exec (.kxor n) s = .next { s with err := .state, payload := [] }) ∧
    exec .kfin s = .next { s with err := .state, payload := [] } ∧
    bitField (readRegister s 1) 23 16 = 0

/-- In KEYSTREAM no command but KXOR lets the context show: what it emits, and what STATUS reads afterwards, is the same
whatever the lanes, the HashArray, the firewall and kb hold (R198, R220). -/
def Obligations.OnlyKxorRevealsKeystream : Prop :=
  ∀ (s : State) (c : Context s.cfg) (i : Instr),
    s.ctx.st = .keystream → c.st = .keystream → c.filled = s.ctx.filled → (∀ n, i ≠ .kxor n) →
    ∃ t t', exec i s = .next t ∧ exec i { s with ctx := c } = .next t' ∧
      t'.dout = t.dout ∧ readRegister t' 0 = readRegister t 0

/-- The hash commands never use the firewall: HINIT and HUPD do the same whatever it holds and leave it as it is, the
digest, made of the squeeze words of the main lanes, does not depend on it, and in EMPTY and FILLING it is zero (R199). -/
def Obligations.HashIgnoresFirewall : Prop :=
  ∀ s : State,
    (∀ i : Instr, ((∃ iv sd len, i = .hinit iv sd len) ∨ ∃ n, i = .hupd n) →
      ∃ (c : Context s.cfg) (e : ErrCode),
        exec i s = .next { s with ctx := c, err := e, payload := [] } ∧
        c.fw = s.ctx.fw ∧ c.fh = s.ctx.fh ∧ c.fc = s.ctx.fc ∧
        ∀ (fw : Vector (Lane s.cfg.bits) 2) (fh : Vector (Word s.cfg.bits) 3) (fc : Fin 3),
          exec i { s with ctx := { s.ctx with fw := fw, fh := fh, fc := fc } } =
            .next { s with ctx := { c with fw := fw, fh := fh, fc := fc }, err := e, payload := [] }) ∧
    (∀ (fw : Vector (Lane s.cfg.bits) 2) (fh : Vector (Word s.cfg.bits) 3) (fc : Fin 3),
      s.ctx.st = .empty ∨ s.ctx.st = .filling →
      exec .hfin { s with ctx := { s.ctx with fw := fw, fh := fh, fc := fc } } =
        .next { s with
          ctx := Context.zero s.cfg
          err := .ok
          dout := s.dout ++ (squeeze (flush s.ctx)).2
          payload := [] }) ∧
    (StateInv s → s.ctx.st = .empty ∨ s.ctx.st = .filling →
      s.ctx.fw = Vector.replicate 2 { seed := 0, lcg := 0 } ∧ s.ctx.fh = Vector.replicate 3 0 ∧ s.ctx.fc = 0)

/-- FILLED decides nothing: a command does the same, whatever FILLED holds, but for FILLED itself (R28, R36). -/
def Obligations.FilledDecidesNothing : Prop :=
  ∀ (s : State) (b : Bool) (i : Instr),
    ∃ (c c' : Context s.cfg) (e : ErrCode) (out : List Byte),
      exec i s = .next { s with ctx := c, err := e, dout := s.dout ++ out, payload := [] } ∧
      exec i { s with ctx := { s.ctx with filled := b } } =
        .next { s with ctx := c', err := e, dout := s.dout ++ out, payload := [] } ∧
      { c' with filled := c.filled } = c

/-! ### All commands -/

/-- ROUND in every state emits Round(S, C, H) of the three words in its payload and changes nothing else but ERR
(R81, R101, R105). -/
def Obligations.RoundCommandComputes : Prop :=
  ∀ (s : State) (x c h : Word s.cfg.bits), s.payload = bytesLE x ++ bytesLE c ++ bytesLE h →
    let r := coreRound x c h
    exec .round s =
      .next { s with
        err := .ok
        dout := s.dout ++ (bytesLE r.seed ++ bytesLE r.lcg ++ bytesLE r.hash ++ bytesLE r.out)
        payload := [] }

/-- With one lane, the active lane is lane 0, AbsorbWord uses it, a blank round is one round, and a squeeze word is that
round's out (R194). -/
def Obligations.SingleLaneIsSinglePair : Prop :=
  ∀ (cfg : Config) (c : Context cfg), CtxInv c → cfg.p = 1 →
    ∃ l : Lane cfg.bits,
      let r := coreRound l.seed l.lcg (hashAt c c.cur)
      c.lanes = [l] ∧ c.lane = 0 ∧ (∀ m, (absorbWord m c).lane = 0) ∧
      (∀ m, (absorbWord m c).lanes =
        [{ seed := (coreRound l.seed (l.lcg ^^^ m) (hashAt c c.cur)).seed
           lcg := (coreRound l.seed (l.lcg ^^^ m) (hashAt c c.cur)).lcg }]) ∧
      blankRound c = { c with
        lanes := [{ seed := r.seed, lcg := r.lcg }], hash := c.hash.set c.cur r.hash, cur := (c.cur + 1) % c.n } ∧
      (sweepSlot c).2 = r.out

/-- Every command ends in a next state that differs from the one before only in the context, ERR, the output appended
and the payload consumed; a rejected command changes only ERR (R38, R59, R240, R243). -/
def Obligations.ExecFrame : Prop :=
  ∀ (i : Instr) (s : State),
    ∃ (c : Context s.cfg) (e : ErrCode) (out : List Byte),
      exec i s = .next { s with ctx := c, err := e, dout := s.dout ++ out, payload := [] } ∧
      (e ≠ .ok → c = s.ctx ∧ out = [])

/-- The context state after every command, as R140's table has it; a command the table calls E_STATE is rejected with
that code and nothing else changes, and a command rejected for another reason keeps ST. -/
def Obligations.ContextTransitions : Prop :=
  ∀ (i : Instr) (s : State),
    let after : Option CtxState :=
      match s.ctx.st, i with
      | .idle, .hinit _ _ _ => some .empty
      | .idle, .kinit _ _ => some .keystream
      | .empty, .hupd n => if n = 0 then some .empty else some .filling
      | .filling, .hupd _ => some .filling
      | .empty, .hfin => some .idle
      | .filling, .hfin => some .idle
      | .keystream, .kxor _ => some .keystream
      | .keystream, .kfin => some .idle
      | st, .round => some st
      | _, _ => none
    (after = none → exec i s = .next { s with err := .state, payload := [] }) ∧
    (∀ st, after = some st → ∃ t, exec i s = .next t ∧
      t.err ≠ .state ∧ (t.err = .ok → t.ctx.st = st) ∧ (t.err ≠ .ok → t.ctx.st = s.ctx.st))

/-- Transactions take effect in order: what a sequence leaves is what its second part leaves after its first (R58). -/
def Obligations.TransactionsComposeInOrder : Prop :=
  ∀ (s t : State) (ts us : List Transaction), s.port = [] → runAll ts s = .next t →
    t.port = [] ∧ runAll (ts ++ us) s = runAll us t

/-! ### The assembler -/

/-- A byte string of any length becomes HUPD or KXOR transactions of at most 16777215 bytes each, which carry its bytes in
order (R85, R91, R92). -/
def Obligations.LongPayloadsSplitInOrder : Prop :=
  ∀ bytes : List Byte,
    (∃ pieces : List (List Byte), pieces.flatten = bytes ∧ (∀ p ∈ pieces, p.length ≤ 16777215) ∧
      sendHupd bytes = some (pieces.map hupdOf) ∧ sendKxor bytes = some (pieces.map kxorOf)) ∧
    (bytes.length ≤ 16777215 → sendHupd bytes = some [hupdOf bytes] ∧ sendKxor bytes = some [kxorOf bytes])

/-- KSTREAM n expands to KXOR of n zero bytes, and its output in KEYSTREAM is the next n keystream bytes themselves
(R93). -/
def Obligations.KstreamEmitsKeystream : Prop :=
  ∀ (s : State) (n : Nat), s.ctx.st = .keystream → s.port = [] →
    ∃ ts t, assemble s.cfg (.kstream n) = some ts ∧ assemble s.cfg (.kxor (List.replicate n 0)) = some ts ∧
      (n < 2 ^ 24 → ts = [kxorOf (List.replicate n 0)]) ∧
      runAll ts s = .next t ∧ t.dout = s.dout ++ (s.ctx.kb ++ keystreamBlocks n s.ctx).take n
end

