-- ==== Sys2Proof/Laws/Decode.lean ====
section
/-! SUPPORT. Fields, encodings and the cases of the decoder. -/

namespace Sys2Proof

/-- A field as a quotient and a remainder. -/
theorem bitField_eq (cmd : BitVec 32) (hi lo : Nat) : bitField cmd hi lo =
    cmd.toNat / 2 ^ lo % 2 ^ (hi - lo + 1) := by
  simp [bitField, BitVec.extractLsb, BitVec.extractLsb'_toNat, Nat.shiftRight_eq_div_pow]

/-- The command word as a number (spec/30_encoding.md R71). -/
theorem encode_toNat (i : Instr) (h : i.wf = true) : (encode i).toNat =
    match i with
    | .hinit iv sd len => 0x01 * 2 ^ 24 + iv.toNat * 2 ^ 23 + sd.toNat * 2 ^ 22 + len
    | .hupd n => 0x02 * 2 ^ 24 + n
    | .hfin => 0x03 * 2 ^ 24
    | .kinit klen nlen => 0x04 * 2 ^ 24 + klen * 2 ^ 8 + nlen
    | .kxor n => 0x05 * 2 ^ 24 + n
    | .kfin => 0x06 * 2 ^ 24
    | .round => 0x07 * 2 ^ 24 := by
  cases i <;> simp only [Instr.wf, decide_eq_true_eq, Bool.and_eq_true] at h <;>
    simp only [encode, BitVec.toNat_ofNat] <;> apply Nat.mod_eq_of_lt
  case hinit iv sd len _ => have := iv.toNat_lt; have := sd.toNat_lt; omega
  all_goals omega

/-- The opcode of an encoding (R73). -/
theorem opcodeOf_encode (i : Instr) (h : i.wf = true) : opcodeOf (encode i) =
    match i with
    | .hinit _ _ _ => 1 | .hupd _ => 2 | .hfin => 3 | .kinit _ _ => 4 | .kxor _ => 5 | .kfin => 6 | .round => 7 := by
  rw [opcodeOf, bitField_eq, encode_toNat i h]
  cases i <;> simp only [Instr.wf, decide_eq_true_eq, Bool.and_eq_true] at h ⊢
  case hinit iv sd len => have := iv.toNat_lt; have := sd.toNat_lt; omega
  all_goals omega

/-- A word whose row is known and whose reserved bits are clear. -/
theorem decode_of_row {cmd : BitVec 32} {i : Instr} (h : decodeRow cmd = some i)
    (hr : reservedField (opcodeOf cmd) cmd = 0) : decode cmd = .ok i := by
  simp [decode, h, hr]

/-- What decode can answer when it answers an instruction: one case per row of R73. -/
theorem decode_cases {cmd : BitVec 32} {i : Instr} (h : decode cmd = .ok i) :
    (opcodeOf cmd = 1 ∧ bitField cmd 21 16 = 0 ∧ i = .hinit (decide (bitField cmd 23 23 =
        1)) (decide (bitField cmd 22 22 = 1)) (bitField cmd 15 0)) ∨
    (opcodeOf cmd = 2 ∧ i = .hupd (bitField cmd 23 0)) ∨
    (opcodeOf cmd = 3 ∧ bitField cmd 23 0 = 0 ∧ i = .hfin) ∨
    (opcodeOf cmd = 4 ∧ bitField cmd 23 16 = 0 ∧ i = .kinit (bitField cmd 15 8) (bitField cmd 7 0)) ∨
    (opcodeOf cmd = 5 ∧ i = .kxor (bitField cmd 23 0)) ∨
    (opcodeOf cmd = 6 ∧ bitField cmd 23 0 = 0 ∧ i = .kfin) ∨
    (opcodeOf cmd = 7 ∧ bitField cmd 23 0 = 0 ∧ i = .round) := by
  unfold decode at h
  split at h
  · simp at h
  · rename_i j hj
    split at h
    · simp at h
    · rename_i hr
      simp only [Except.ok.injEq] at h
      subst h
      simp only [decodeRow] at hj
      split at hj <;> rename_i ho <;> simp_all [reservedField]

/-- The opcodes without a row (R75). -/
theorem decodeRow_none {cmd : BitVec 32} : decodeRow cmd = none ↔ (opcodeOf cmd = 0 ∨ 8 ≤ opcodeOf cmd) := by
  unfold decodeRow
  split <;> rename_i h
  all_goals first
    | (rw [h]; simp)
    | skip
  rename_i h2 h3 h4 h5 h6 h7
  simp only [true_iff]
  by_contra hc
  have : opcodeOf cmd = 1 ∨ opcodeOf cmd = 2 ∨ opcodeOf cmd = 3 ∨ opcodeOf cmd = 4 ∨ opcodeOf cmd = 5 ∨
      opcodeOf cmd = 6 ∨ opcodeOf cmd = 7 := by omega
  rcases this with e | e | e | e | e | e | e
  exacts [h2 e, h3 e, h4 e, h5 e, h6 e, h7 e, h e]

/-- An illegal opcode (R75). -/
theorem decode_illegal {cmd : BitVec 32} (h : opcodeOf cmd = 0 ∨ 8 ≤ opcodeOf cmd) : decode cmd =
    .error .illegalOpcode := by
  simp [decode, decodeRow_none.2 h]

/-- An illegal opcode announces no payload (R75). -/
theorem payloadLength_illegal {cmd : BitVec 32} (b : Nat) (h : opcodeOf cmd = 0 ∨ 8 ≤ opcodeOf cmd) :
    payloadLength b cmd = 0 := by
  unfold payloadLength; split <;> first | rfl | omega

/-- A set reserved bit (R74). -/
theorem decode_reserved {cmd : BitVec 32} (h : ¬ (opcodeOf cmd = 0 ∨ 8 ≤ opcodeOf cmd)) (hr :
    reservedField (opcodeOf cmd) cmd ≠ 0) :
    decode cmd = .error .reservedField := by
  have : decodeRow cmd ≠ none := fun e => h (decodeRow_none.1 e)
  obtain ⟨i, hi⟩ := Option.ne_none_iff_exists'.1 this
  simp [decode, hi, hr]

/-- A mask of `a` ones at bit `k` picks the field there. -/
theorem and_field (x a k : Nat) : x &&& ((2 ^ a - 1) * 2 ^ k) = x / 2 ^ k % 2 ^ a * 2 ^ k := by
  apply Nat.eq_of_testBit_eq
  intro i
  rw [Nat.testBit_and, Nat.testBit_mul_two_pow, Nat.testBit_mul_two_pow, Nat.testBit_two_pow_sub_one,
      Nat.testBit_mod_two_pow,
    Nat.testBit_div_two_pow]
  by_cases h : k ≤ i
  · simp [h, Bool.and_comm]
  · simp [h]

/-- The mask of HINIT's row picks the opcode and the reserved bits. -/
theorem and_two_fields (x : Nat) : x &&& 0xFF3F0000 = x / 2 ^ 24 % 2 ^ 8 * 2 ^ 24 + x / 2 ^ 16 % 2 ^ 6 * 2 ^ 16 := by
  have h : (0xFF3F0000 : Nat) = (2 ^ 8 - 1) * 2 ^ 24 ||| (2 ^ 6 - 1) * 2 ^ 16 := by decide
  rw [h, Nat.and_or_distrib_left, and_field, and_field, Nat.mul_comm (x / 2 ^ 24 % 2 ^ 8),
      ← Nat.two_pow_add_eq_or_of_lt]
  omega

end Sys2Proof
end

