-- ==== Sys2Proof/Laws/Bytes.lean ====
section
/-! SUPPORT. Words, byte strings and the tail word. -/

namespace Sys2Proof.Machine

/-! ### The widths -/

/-- W is eight times B (spec/00_scope.md R6). -/
theorem width_bits_eq (width : Width) : width.bits = 8 * (width.bits / 8) := by cases width <;> rfl

/-- B is at least 1 (R6). -/
theorem width_bytes_pos (width : Width) : 1 ≤ width.bits / 8 := by cases width <;> decide

theorem width_bits_even (width : Width) : width.bits = 2 * (width.bits / 2) := by cases width <;> rfl

/-- B is at least 1, for the word size of a build. -/
theorem bytes_pos (cfg : Config) : 1 ≤ cfg.bytes := width_bytes_pos cfg.width

/-! ### The number a byte string spells (R15) -/

@[simp] theorem leNat_nil : leNat [] = 0 := rfl

@[simp] theorem leNat_cons (b : Byte) (bs : List Byte) : leNat (b :: bs) = b.toNat + 2 ^ 8 * leNat bs := rfl

/-- The number a concatenation spells. -/
theorem leNat_append (a b : List Byte) : leNat (a ++ b) = leNat a + 2 ^ (8 * a.length) * leNat b := by
  induction a with
  | nil => simp
  | cons x xs ih => simp only [List.cons_append, leNat_cons, ih, List.length_cons]; ring

/-- A byte string of n bytes spells a number below 2^(8n). -/
theorem leNat_lt (a : List Byte) : leNat a < 2 ^ (8 * a.length) := by
  induction a with
  | nil => simp
  | cons x xs ih =>
    have hx := x.isLt
    simp only [leNat_cons, List.length_cons]
    have : 2 ^ (8 * (xs.length + 1)) = 2 ^ 8 * 2 ^ (8 * xs.length) := by ring
    omega

@[simp] theorem leNat_replicate_zero (n : Nat) : leNat (List.replicate n 0#8) = 0 := by
  induction n with
  | zero => rfl
  | succ n ih => simp [List.replicate_succ, ih]

/-- Byte strings of one length are told apart by the number they spell. -/
theorem leNat_injective {a b : List Byte} (hl : a.length = b.length) (h : leNat a = leNat b) : a = b := by
  induction a generalizing b with
  | nil => cases b with
    | nil => rfl
    | cons _ _ => simp at hl
  | cons x xs ih =>
    cases b with
    | nil => simp at hl
    | cons y ys =>
      simp only [leNat_cons] at h
      have hx := x.isLt
      have hy := y.isLt
      have h1 : x.toNat = y.toNat := by omega
      have h2 : leNat xs = leNat ys := by omega
      rw [BitVec.eq_of_toNat_eq h1, ih (by simpa using hl) h2]

/-! ### Words and their bytes (R15, R52, R53) -/

@[simp] theorem bytesLE_length {w : Nat} (v : Word w) : (bytesLE v).length = w / 8 := by simp [bytesLE]

/-- Byte i of a word is its bits 8i+7 .. 8i. -/
theorem bytesLE_getElem? {w : Nat} (v : Word w) {i : Nat} (hi : i < w / 8) :
    (bytesLE v)[i]? = some (v.extractLsb' (8 * i) 8) := by
  simp [bytesLE, hi]

/-- The low k bytes of a word spell it modulo 2^(8k). -/
theorem leNat_low_bytes {w : Nat} (v : Word w) (k : Nat) :
    leNat ((List.range k).map fun i => v.extractLsb' (8 * i) 8) = v.toNat % 2 ^ (8 * k) := by
  induction k with
  | zero => simp [Nat.mod_one]
  | succ k ih =>
    rw [List.range_succ, List.map_append, leNat_append, ih]
    simp only [List.map_cons, List.map_nil, leNat_cons, leNat_nil, List.length_map, List.length_range,
      BitVec.extractLsb'_toNat, Nat.shiftRight_eq_div_pow]
    rw [show 8 * (k + 1) = 8 * k + 8 by ring, Nat.pow_add, Nat.mod_mul]
    ring

/-- The bytes of a word spell the word. -/
theorem leNat_bytesLE (width : Width) (v : Word width.bits) : leNat (bytesLE v) = v.toNat := by
  rw [bytesLE, leNat_low_bytes, ← width_bits_eq, Nat.mod_eq_of_lt v.isLt]

/-- LE undoes bytesLE. -/
theorem le_bytesLE (width : Width) (v : Word width.bits) : le width.bits (bytesLE v) = v := by
  rw [le, leNat_bytesLE, BitVec.ofNat_toNat, BitVec.setWidth_eq]

/-- LE of at most B bytes loses nothing. -/
theorem le_toNat {width : Width} {bs : List Byte} (h : bs.length ≤ width.bits / 8) :
    (le width.bits bs).toNat = leNat bs := by
  have := leNat_lt bs
  have : 2 ^ (8 * bs.length) ≤ 2 ^ width.bits := Nat.pow_le_pow_right (by decide) (by
    have := width_bits_eq width; omega)
  simp only [le, BitVec.toNat_ofNat]
  exact Nat.mod_eq_of_lt (by omega)

/-- bytesLE undoes LE on a full word. -/
theorem bytesLE_le {width : Width} {bs : List Byte} (h : bs.length = width.bits / 8) :
    bytesLE (le width.bits bs) = bs :=
  leNat_injective (by simp [h]) (by rw [leNat_bytesLE, le_toNat h.le])

/-- LE tells full words apart. -/
theorem le_injective {width : Width} {a b : List Byte} (ha : a.length = width.bits / 8)
    (hb : b.length = width.bits / 8) (h : le width.bits a = le width.bits b) : a = b := by
  rw [← bytesLE_le ha, h, bytesLE_le hb]

@[simp] theorem le_replicate_zero (w n : Nat) : le w (List.replicate n 0#8) = 0#w := by simp [le]

/-! ### The tail word (41_word_loader.md R122) -/

/-- fb is 1 or 2 (R121). -/
theorem finalByteMarker_eq (b : Bool) : finalByteMarker b = if b then 2 else 1 := by cases b <;> rfl

/-- The tail word as a number: the leftover bytes and the sentinel above them. -/
theorem tailWord_toNat {width : Width} {hb : List Byte} {fbit : Bool} (h : hb.length < width.bits / 8) :
    (tailWord width.bits hb fbit).toNat = leNat hb + 2 ^ (8 * hb.length) * (if fbit then 2 else 1) := by
  have hw := width_bits_eq width
  have hlt := leNat_lt hb
  have h2 : (2 : Nat) ≤ 2 ^ (8:ℕ) := by decide
  have hpow : 2 ^ (8 * hb.length) * 2 ^ 8 ≤ 2 ^ width.bits := by
    rw [← Nat.pow_add]; exact Nat.pow_le_pow_right (by decide) (by omega)
  have hm : finalByteMarker fbit ≤ 2 := by cases fbit <;> decide
  have hm2 : 2 ^ (8 * hb.length) * finalByteMarker fbit < 2 ^ width.bits := by
    have : 2 ^ (8 * hb.length) * finalByteMarker fbit ≤ 2 ^ (8 * hb.length) * 2 := Nat.mul_le_mul_left _ hm
    have : 0 < 2 ^ (8 * hb.length) := by positivity
    omega
  have hmw : finalByteMarker fbit < 2 ^ width.bits := by
    have : 0 < 2 ^ (8 * hb.length) := by positivity
    nlinarith
  rw [tailWord, BitVec.toNat_or, le_toNat h.le, BitVec.toNat_shiftLeft, BitVec.toNat_ofNat, Nat.mod_eq_of_lt hmw,
    Nat.shiftLeft_eq, Nat.mul_comm, Nat.mod_eq_of_lt hm2, Nat.or_comm, ← Nat.two_pow_add_eq_or_of_lt hlt,
    finalByteMarker_eq, Nat.add_comm]

/-- The tail word is LE of the leftover bytes and the sentinel byte. -/
theorem tailWord_eq_le {width : Width} {hb : List Byte} {fbit : Bool} (h : hb.length < width.bits / 8) :
    tailWord width.bits hb fbit = le width.bits (hb ++ [if fbit then 2 else 1]) := by
  apply BitVec.eq_of_toNat_eq
  rw [tailWord_toNat h, le_toNat (by simpa using h), leNat_append]
  cases fbit <;> simp

end Sys2Proof.Machine
end

