-- ==== Sys2Proof/Laws/Round.lean ====
section
/-! SUPPORT. The core round, the sweep, and repeated application. -/

namespace Sys2Proof.Machine

/-! ### The core round (40_core_round.md R101, R102, R103) -/

/-- C - not C is 2C + 1 (R102). -/
theorem sub_not_eq {w : Nat} (c : Word w) : c - ~~~c = 2 * c + 1 := by
  rw [BitVec.not_eq_neg_add, show (1#w : Word w) = 1 from rfl]; ring

/-- The new Lcg. -/
theorem coreRound_lcg {w : Nat} (s c h : Word w) : (coreRound s c h).lcg = c + s * (2 * c + 1) := by
  simp [coreRound, sub_not_eq]

/-- The new HashWord. -/
theorem coreRound_hash {w : Nat} (s c h : Word w) : (coreRound s c h).hash = h + rot (s * (2 * c + 1)) + kW w := by
  simp [coreRound, sub_not_eq]

/-- The new Seed. -/
theorem coreRound_seed {w : Nat} (s c h : Word w) : (coreRound s c h).seed =
    (s * (2 * c + 1)) ^^^ (coreRound s c h).hash := by
  simp [coreRound, sub_not_eq]

/-- out. -/
theorem coreRound_out {w : Nat} (s c h : Word w) : (coreRound s c h).out =
    (c + s * (2 * c + 1)) ^^^ rot (s * (2 * c + 1)) := by
  simp [coreRound, sub_not_eq]

/-- Multiplying by an odd number loses nothing. -/
theorem odd_mul_injective {w : Nat} (c : Word w) : Function.Injective fun s : Word w => s * (2 * c + 1) := by
  intro a b h
  have hc : Nat.Coprime (2 * c.toNat + 1) (2 ^ w) := by
    apply Nat.Coprime.pow_right
    simp
  have h1 : (a.toNat * (2 * c.toNat + 1)) ≡ b.toNat * (2 * c.toNat + 1) [MOD 2 ^ w] := by
    have := congrArg BitVec.toNat h
    simpa [Nat.ModEq, BitVec.toNat_mul, BitVec.toNat_add, Nat.mul_mod, Nat.add_mod] using this
  have h2 := Nat.ModEq.cancel_right_of_coprime (by simpa [Nat.coprime_comm] using hc) h1
  apply BitVec.eq_of_toNat_eq
  rw [Nat.ModEq, Nat.mod_eq_of_lt a.isLt, Nat.mod_eq_of_lt b.isLt] at h2
  exact h2

theorem rot_zero (w : Nat) : rot (0 : Word w) = 0 := by simp [rot]

/-! ### Sweeps and repetition -/

theorem sweepLanes_length {w : Nat} (ls : List (Lane w)) (h : Word w) : (sweepLanes ls h).lanes.length =
    ls.length := by
  induction ls generalizing h with
  | nil => rfl
  | cons l ls ih => simp [sweepLanes, ih]

/-- The last application split off. -/
theorem repeatN_succ' {α : Type} (f : α → α) (k : Nat) (x : α) : repeatN f (k + 1) x = f (repeatN f k x) := by
  induction k generalizing x with
  | zero => rfl
  | succ k ih => rw [repeatN, ih, repeatN]

/-- Offsets below n are told apart modulo n. -/
theorem mod_add_inj {c n a b : Nat} (ha : a < n) (hb : b < n) (h : (c + a) % n = (c + b) % n) : a = b := by
  have : a ≡ b [MOD n] := Nat.ModEq.add_left_cancel' c h
  rwa [Nat.ModEq, Nat.mod_eq_of_lt ha, Nat.mod_eq_of_lt hb] at this

end Sys2Proof.Machine
end

