-- ==== Sys2Proof/Laws/State.lean ====
section
/-! SUPPORT. One lemma per field per update of the state and of the context, true by rfl, so that no proof unfolds a
record update. -/

namespace Sys2Proof.Machine

variable {cfg : Config}

/-! ### reject -/

@[simp] theorem reject_cfg (e : ErrCode) (s : State) :
    (reject e s).cfg = s.cfg := rfl
@[simp] theorem reject_ctx (e : ErrCode) (s : State) :
    (reject e s).ctx = s.ctx := rfl
@[simp] theorem reject_err (e : ErrCode) (s : State) :
    (reject e s).err = e := rfl
@[simp] theorem reject_dout (e : ErrCode) (s : State) :
    (reject e s).dout = s.dout := rfl
@[simp] theorem reject_payload (e : ErrCode) (s : State) :
    (reject e s).payload = [] := rfl
@[simp] theorem reject_port (e : ErrCode) (s : State) :
    (reject e s).port = s.port := rfl

/-! ### accept -/

@[simp] theorem accept_cfg (s : State) (c : Context s.cfg) (out : List Byte) :
    (accept s c out).cfg = s.cfg := rfl
@[simp] theorem accept_ctx (s : State) (c : Context s.cfg) (out : List Byte) :
    (accept s c out).ctx = c := rfl
@[simp] theorem accept_err (s : State) (c : Context s.cfg) (out : List Byte) :
    (accept s c out).err = .ok := rfl
@[simp] theorem accept_dout (s : State) (c : Context s.cfg) (out : List Byte) :
    (accept s c out).dout = s.dout ++ out := rfl
@[simp] theorem accept_payload (s : State) (c : Context s.cfg) (out : List Byte) :
    (accept s c out).payload = [] := rfl
@[simp] theorem accept_port (s : State) (c : Context s.cfg) (out : List Byte) :
    (accept s c out).port = s.port := rfl

/-! ### beginTransaction -/

@[simp] theorem beginTransaction_cfg (t : Transaction) (rest : List HostAction) (s : State) :
    (beginTransaction t rest s).cfg = s.cfg := rfl
@[simp] theorem beginTransaction_ctx (t : Transaction) (rest : List HostAction) (s : State) :
    (beginTransaction t rest s).ctx = s.ctx := rfl
@[simp] theorem beginTransaction_err (t : Transaction) (rest : List HostAction) (s : State) :
    (beginTransaction t rest s).err = s.err := rfl
@[simp] theorem beginTransaction_dout (t : Transaction) (rest : List HostAction) (s : State) :
    (beginTransaction t rest s).dout = s.dout := rfl
@[simp] theorem beginTransaction_payload (t : Transaction) (rest : List HostAction) (s : State) :
    (beginTransaction t rest s).payload = t.payload := rfl
@[simp] theorem beginTransaction_port (t : Transaction) (rest : List HostAction) (s : State) :
    (beginTransaction t rest s).port = rest := rfl

/-! ### takeOutput -/

@[simp] theorem takeOutput_cfg (k : Nat) (rest : List HostAction) (s : State) :
    (takeOutput k rest s).cfg = s.cfg := rfl
@[simp] theorem takeOutput_ctx (k : Nat) (rest : List HostAction) (s : State) :
    (takeOutput k rest s).ctx = s.ctx := rfl
@[simp] theorem takeOutput_err (k : Nat) (rest : List HostAction) (s : State) :
    (takeOutput k rest s).err = s.err := rfl
@[simp] theorem takeOutput_dout (k : Nat) (rest : List HostAction) (s : State) :
    (takeOutput k rest s).dout = s.dout.drop k := rfl
@[simp] theorem takeOutput_payload (k : Nat) (rest : List HostAction) (s : State) :
    (takeOutput k rest s).payload = s.payload := rfl
@[simp] theorem takeOutput_port (k : Nat) (rest : List HostAction) (s : State) :
    (takeOutput k rest s).port = rest := rfl

/-! ### applyReset -/

@[simp] theorem applyReset_cfg (rest : List HostAction) (s : State) :
    (applyReset rest s).cfg = s.cfg := rfl
@[simp] theorem applyReset_ctx (rest : List HostAction) (s : State) :
    (applyReset rest s).ctx = Context.zero s.cfg := rfl
@[simp] theorem applyReset_err (rest : List HostAction) (s : State) :
    (applyReset rest s).err = .ok := rfl
@[simp] theorem applyReset_dout (rest : List HostAction) (s : State) :
    (applyReset rest s).dout = [] := rfl
@[simp] theorem applyReset_payload (rest : List HostAction) (s : State) :
    (applyReset rest s).payload = [] := rfl
@[simp] theorem applyReset_port (rest : List HostAction) (s : State) :
    (applyReset rest s).port = rest := rfl

/-! ### resetOf -/

@[simp] theorem resetOf_cfg (cfg : Config) :
    (State.resetOf cfg).cfg = cfg := rfl
@[simp] theorem resetOf_ctx (cfg : Config) :
    (State.resetOf cfg).ctx = Context.zero cfg := rfl
@[simp] theorem resetOf_err (cfg : Config) :
    (State.resetOf cfg).err = .ok := rfl
@[simp] theorem resetOf_dout (cfg : Config) :
    (State.resetOf cfg).dout = [] := rfl
@[simp] theorem resetOf_payload (cfg : Config) :
    (State.resetOf cfg).payload = [] := rfl
@[simp] theorem resetOf_port (cfg : Config) :
    (State.resetOf cfg).port = [] := rfl

/-! ### The wiped context -/

@[simp] theorem context_zero_st (cfg : Config) :
    (Context.zero cfg).st = .idle := rfl
@[simp] theorem context_zero_n (cfg : Config) :
    (Context.zero cfg).n = 0 := rfl
@[simp] theorem context_zero_lanes (cfg : Config) :
    (Context.zero cfg).lanes = List.replicate cfg.p { seed := 0, lcg := 0 } := rfl
@[simp] theorem context_zero_hash (cfg : Config) :
    (Context.zero cfg).hash = List.replicate cfg.nmax 0 := rfl
@[simp] theorem context_zero_cur (cfg : Config) :
    (Context.zero cfg).cur = 0 := rfl
@[simp] theorem context_zero_lane (cfg : Config) :
    (Context.zero cfg).lane = 0 := rfl
@[simp] theorem context_zero_hb (cfg : Config) :
    (Context.zero cfg).hb = [] := rfl
@[simp] theorem context_zero_fbit (cfg : Config) :
    (Context.zero cfg).fbit = false := rfl
@[simp] theorem context_zero_filled (cfg : Config) :
    (Context.zero cfg).filled = false := rfl
@[simp] theorem context_zero_fw (cfg : Config) :
    (Context.zero cfg).fw = Vector.replicate 2 { seed := 0, lcg := 0 } := rfl
@[simp] theorem context_zero_fh (cfg : Config) :
    (Context.zero cfg).fh = Vector.replicate 3 0 := rfl
@[simp] theorem context_zero_fc (cfg : Config) :
    (Context.zero cfg).fc = 0 := rfl
@[simp] theorem context_zero_kb (cfg : Config) :
    (Context.zero cfg).kb = [] := rfl

/-! ### rewind -/

@[simp] theorem rewind_st (c : Context cfg) :
    (rewind c).st = c.st := rfl
@[simp] theorem rewind_n (c : Context cfg) :
    (rewind c).n = c.n := rfl
@[simp] theorem rewind_lanes (c : Context cfg) :
    (rewind c).lanes = c.lanes := rfl
@[simp] theorem rewind_hash (c : Context cfg) :
    (rewind c).hash = c.hash := rfl
@[simp] theorem rewind_cur (c : Context cfg) :
    (rewind c).cur = 0 := rfl
@[simp] theorem rewind_lane (c : Context cfg) :
    (rewind c).lane = 0 := rfl
@[simp] theorem rewind_hb (c : Context cfg) :
    (rewind c).hb = [] := rfl
@[simp] theorem rewind_fbit (c : Context cfg) :
    (rewind c).fbit = false := rfl
@[simp] theorem rewind_filled (c : Context cfg) :
    (rewind c).filled = false := rfl
@[simp] theorem rewind_fw (c : Context cfg) :
    (rewind c).fw = c.fw := rfl
@[simp] theorem rewind_fh (c : Context cfg) :
    (rewind c).fh = c.fh := rfl
@[simp] theorem rewind_fc (c : Context cfg) :
    (rewind c).fc = c.fc := rfl
@[simp] theorem rewind_kb (c : Context cfg) :
    (rewind c).kb = c.kb := rfl

/-! ### initNoIV -/

@[simp] theorem initNoIV_st (x : Word cfg.bits) (c : Context cfg) :
    (initNoIV x c).st = c.st := rfl
@[simp] theorem initNoIV_n (x : Word cfg.bits) (c : Context cfg) :
    (initNoIV x c).n = c.n := rfl
@[simp] theorem initNoIV_lanes (x : Word cfg.bits) (c : Context cfg) :
    (initNoIV x c).lanes = List.replicate cfg.p
      { seed := (zeroState cfg.bits).seed ^^^ x, lcg := (zeroState cfg.bits).lcg } := rfl
@[simp] theorem initNoIV_hash (x : Word cfg.bits) (c : Context cfg) :
    (initNoIV x c).hash = (zeroState cfg.bits).hash :: List.replicate (cfg.nmax - 1) 0 := rfl
@[simp] theorem initNoIV_cur (x : Word cfg.bits) (c : Context cfg) :
    (initNoIV x c).cur = c.cur := rfl
@[simp] theorem initNoIV_lane (x : Word cfg.bits) (c : Context cfg) :
    (initNoIV x c).lane = c.lane := rfl
@[simp] theorem initNoIV_hb (x : Word cfg.bits) (c : Context cfg) :
    (initNoIV x c).hb = c.hb := rfl
@[simp] theorem initNoIV_fbit (x : Word cfg.bits) (c : Context cfg) :
    (initNoIV x c).fbit = c.fbit := rfl
@[simp] theorem initNoIV_filled (x : Word cfg.bits) (c : Context cfg) :
    (initNoIV x c).filled = c.filled := rfl
@[simp] theorem initNoIV_fw (x : Word cfg.bits) (c : Context cfg) :
    (initNoIV x c).fw = c.fw := rfl
@[simp] theorem initNoIV_fh (x : Word cfg.bits) (c : Context cfg) :
    (initNoIV x c).fh = c.fh := rfl
@[simp] theorem initNoIV_fc (x : Word cfg.bits) (c : Context cfg) :
    (initNoIV x c).fc = c.fc := rfl
@[simp] theorem initNoIV_kb (x : Word cfg.bits) (c : Context cfg) :
    (initNoIV x c).kb = c.kb := rfl

/-! ### initIV -/

@[simp] theorem initIV_st (x : Word cfg.bits) (iv : List Byte) (c : Context cfg) :
    (initIV x iv c).st = c.st := rfl
@[simp] theorem initIV_n (x : Word cfg.bits) (iv : List Byte) (c : Context cfg) :
    (initIV x iv c).n = c.n := rfl
@[simp] theorem initIV_cur (x : Word cfg.bits) (iv : List Byte) (c : Context cfg) :
    (initIV x iv c).cur = c.cur := rfl
@[simp] theorem initIV_lane (x : Word cfg.bits) (iv : List Byte) (c : Context cfg) :
    (initIV x iv c).lane = c.lane := rfl
@[simp] theorem initIV_hb (x : Word cfg.bits) (iv : List Byte) (c : Context cfg) :
    (initIV x iv c).hb = c.hb := rfl
@[simp] theorem initIV_fbit (x : Word cfg.bits) (iv : List Byte) (c : Context cfg) :
    (initIV x iv c).fbit = c.fbit := rfl
@[simp] theorem initIV_filled (x : Word cfg.bits) (iv : List Byte) (c : Context cfg) :
    (initIV x iv c).filled = c.filled := rfl
@[simp] theorem initIV_fw (x : Word cfg.bits) (iv : List Byte) (c : Context cfg) :
    (initIV x iv c).fw = c.fw := rfl
@[simp] theorem initIV_fh (x : Word cfg.bits) (iv : List Byte) (c : Context cfg) :
    (initIV x iv c).fh = c.fh := rfl
@[simp] theorem initIV_fc (x : Word cfg.bits) (iv : List Byte) (c : Context cfg) :
    (initIV x iv c).fc = c.fc := rfl
@[simp] theorem initIV_kb (x : Word cfg.bits) (iv : List Byte) (c : Context cfg) :
    (initIV x iv c).kb = c.kb := rfl

/-! ### laneRound and absorbWord -/

@[simp] theorem laneRound_st (m : Word cfg.bits) (c : Context cfg) :
    (laneRound m c).1.st = c.st := rfl
@[simp] theorem laneRound_n (m : Word cfg.bits) (c : Context cfg) :
    (laneRound m c).1.n = c.n := rfl
@[simp] theorem laneRound_lanes (m : Word cfg.bits) (c : Context cfg) :
    (laneRound m c).1.lanes = c.lanes.set c.lane
      { seed := (coreRound (laneAt c c.lane).seed ((laneAt c c.lane).lcg ^^^ m) (hashAt c c.cur)).seed
        lcg := (coreRound (laneAt c c.lane).seed ((laneAt c c.lane).lcg ^^^ m) (hashAt c c.cur)).lcg } := rfl
@[simp] theorem laneRound_hash (m : Word cfg.bits) (c : Context cfg) :
    (laneRound m c).1.hash = c.hash.set c.cur
      (coreRound (laneAt c c.lane).seed ((laneAt c c.lane).lcg ^^^ m) (hashAt c c.cur)).hash := rfl
@[simp] theorem laneRound_cur (m : Word cfg.bits) (c : Context cfg) :
    (laneRound m c).1.cur = (c.cur + 1) % c.n := rfl
@[simp] theorem laneRound_lane (m : Word cfg.bits) (c : Context cfg) :
    (laneRound m c).1.lane = (c.lane + 1) % cfg.p := rfl
@[simp] theorem laneRound_hb (m : Word cfg.bits) (c : Context cfg) :
    (laneRound m c).1.hb = c.hb := rfl
@[simp] theorem laneRound_fbit (m : Word cfg.bits) (c : Context cfg) :
    (laneRound m c).1.fbit = c.fbit := rfl
@[simp] theorem laneRound_filled (m : Word cfg.bits) (c : Context cfg) :
    (laneRound m c).1.filled = c.filled := rfl
@[simp] theorem laneRound_fw (m : Word cfg.bits) (c : Context cfg) :
    (laneRound m c).1.fw = c.fw := rfl
@[simp] theorem laneRound_fh (m : Word cfg.bits) (c : Context cfg) :
    (laneRound m c).1.fh = c.fh := rfl
@[simp] theorem laneRound_fc (m : Word cfg.bits) (c : Context cfg) :
    (laneRound m c).1.fc = c.fc := rfl
@[simp] theorem laneRound_kb (m : Word cfg.bits) (c : Context cfg) :
    (laneRound m c).1.kb = c.kb := rfl
@[simp] theorem laneRound_out (m : Word cfg.bits) (c : Context cfg) :
    (laneRound m c).2 =
      (coreRound (laneAt c c.lane).seed ((laneAt c c.lane).lcg ^^^ m) (hashAt c c.cur)).out := rfl
@[simp] theorem absorbWord_st (m : Word cfg.bits) (c : Context cfg) :
    (absorbWord m c).st = c.st := rfl
@[simp] theorem absorbWord_n (m : Word cfg.bits) (c : Context cfg) :
    (absorbWord m c).n = c.n := rfl
@[simp] theorem absorbWord_lanes (m : Word cfg.bits) (c : Context cfg) :
    (absorbWord m c).lanes = c.lanes.set c.lane
      { seed := (coreRound (laneAt c c.lane).seed ((laneAt c c.lane).lcg ^^^ m) (hashAt c c.cur)).seed
        lcg := (coreRound (laneAt c c.lane).seed ((laneAt c c.lane).lcg ^^^ m) (hashAt c c.cur)).lcg } := rfl
@[simp] theorem absorbWord_hash (m : Word cfg.bits) (c : Context cfg) :
    (absorbWord m c).hash = c.hash.set c.cur
      (coreRound (laneAt c c.lane).seed ((laneAt c c.lane).lcg ^^^ m) (hashAt c c.cur)).hash := rfl
@[simp] theorem absorbWord_cur (m : Word cfg.bits) (c : Context cfg) :
    (absorbWord m c).cur = (c.cur + 1) % c.n := rfl
@[simp] theorem absorbWord_lane (m : Word cfg.bits) (c : Context cfg) :
    (absorbWord m c).lane = (c.lane + 1) % cfg.p := rfl
@[simp] theorem absorbWord_hb (m : Word cfg.bits) (c : Context cfg) :
    (absorbWord m c).hb = c.hb := rfl
@[simp] theorem absorbWord_fbit (m : Word cfg.bits) (c : Context cfg) :
    (absorbWord m c).fbit = c.fbit := rfl
@[simp] theorem absorbWord_filled (m : Word cfg.bits) (c : Context cfg) :
    (absorbWord m c).filled = (c.filled || decide (c.cur + 1 = c.n)) := rfl
@[simp] theorem absorbWord_fw (m : Word cfg.bits) (c : Context cfg) :
    (absorbWord m c).fw = c.fw := rfl
@[simp] theorem absorbWord_fh (m : Word cfg.bits) (c : Context cfg) :
    (absorbWord m c).fh = c.fh := rfl
@[simp] theorem absorbWord_fc (m : Word cfg.bits) (c : Context cfg) :
    (absorbWord m c).fc = c.fc := rfl
@[simp] theorem absorbWord_kb (m : Word cfg.bits) (c : Context cfg) :
    (absorbWord m c).kb = c.kb := rfl

/-! ### sweepSlot and blankRound -/

@[simp] theorem sweepSlot_st (c : Context cfg) :
    (sweepSlot c).1.st = c.st := rfl
@[simp] theorem sweepSlot_n (c : Context cfg) :
    (sweepSlot c).1.n = c.n := rfl
@[simp] theorem sweepSlot_lanes (c : Context cfg) :
    (sweepSlot c).1.lanes = (sweepLanes c.lanes (hashAt c c.cur)).lanes := rfl
@[simp] theorem sweepSlot_hash (c : Context cfg) :
    (sweepSlot c).1.hash = c.hash.set c.cur (sweepLanes c.lanes (hashAt c c.cur)).hash := rfl
@[simp] theorem sweepSlot_cur (c : Context cfg) :
    (sweepSlot c).1.cur = (c.cur + 1) % c.n := rfl
@[simp] theorem sweepSlot_lane (c : Context cfg) :
    (sweepSlot c).1.lane = c.lane := rfl
@[simp] theorem sweepSlot_hb (c : Context cfg) :
    (sweepSlot c).1.hb = c.hb := rfl
@[simp] theorem sweepSlot_fbit (c : Context cfg) :
    (sweepSlot c).1.fbit = c.fbit := rfl
@[simp] theorem sweepSlot_filled (c : Context cfg) :
    (sweepSlot c).1.filled = c.filled := rfl
@[simp] theorem sweepSlot_fw (c : Context cfg) :
    (sweepSlot c).1.fw = c.fw := rfl
@[simp] theorem sweepSlot_fh (c : Context cfg) :
    (sweepSlot c).1.fh = c.fh := rfl
@[simp] theorem sweepSlot_fc (c : Context cfg) :
    (sweepSlot c).1.fc = c.fc := rfl
@[simp] theorem sweepSlot_kb (c : Context cfg) :
    (sweepSlot c).1.kb = c.kb := rfl
@[simp] theorem blankRound_st (c : Context cfg) :
    (blankRound c).st = c.st := rfl
@[simp] theorem blankRound_n (c : Context cfg) :
    (blankRound c).n = c.n := rfl
@[simp] theorem blankRound_lanes (c : Context cfg) :
    (blankRound c).lanes = (sweepLanes c.lanes (hashAt c c.cur)).lanes := rfl
@[simp] theorem blankRound_hash (c : Context cfg) :
    (blankRound c).hash = c.hash.set c.cur (sweepLanes c.lanes (hashAt c c.cur)).hash := rfl
@[simp] theorem blankRound_cur (c : Context cfg) :
    (blankRound c).cur = (c.cur + 1) % c.n := rfl
@[simp] theorem blankRound_lane (c : Context cfg) :
    (blankRound c).lane = c.lane := rfl
@[simp] theorem blankRound_hb (c : Context cfg) :
    (blankRound c).hb = c.hb := rfl
@[simp] theorem blankRound_fbit (c : Context cfg) :
    (blankRound c).fbit = c.fbit := rfl
@[simp] theorem blankRound_filled (c : Context cfg) :
    (blankRound c).filled = c.filled := rfl
@[simp] theorem blankRound_fw (c : Context cfg) :
    (blankRound c).fw = c.fw := rfl
@[simp] theorem blankRound_fh (c : Context cfg) :
    (blankRound c).fh = c.fh := rfl
@[simp] theorem blankRound_fc (c : Context cfg) :
    (blankRound c).fc = c.fc := rfl
@[simp] theorem blankRound_kb (c : Context cfg) :
    (blankRound c).kb = c.kb := rfl
@[simp] theorem sweepSlot_out (c : Context cfg) :
    (sweepSlot c).2 = (sweepLanes c.lanes (hashAt c c.cur)).out := rfl

/-! ### The firewall -/

@[simp] theorem firewallStep_st (f : Fin 2) (o : Word cfg.bits) (c : Context cfg) :
    (firewallStep f o c).1.st = c.st := rfl
@[simp] theorem firewallStep_n (f : Fin 2) (o : Word cfg.bits) (c : Context cfg) :
    (firewallStep f o c).1.n = c.n := rfl
@[simp] theorem firewallStep_lanes (f : Fin 2) (o : Word cfg.bits) (c : Context cfg) :
    (firewallStep f o c).1.lanes = c.lanes := rfl
@[simp] theorem firewallStep_hash (f : Fin 2) (o : Word cfg.bits) (c : Context cfg) :
    (firewallStep f o c).1.hash = c.hash := rfl
@[simp] theorem firewallStep_cur (f : Fin 2) (o : Word cfg.bits) (c : Context cfg) :
    (firewallStep f o c).1.cur = c.cur := rfl
@[simp] theorem firewallStep_lane (f : Fin 2) (o : Word cfg.bits) (c : Context cfg) :
    (firewallStep f o c).1.lane = c.lane := rfl
@[simp] theorem firewallStep_hb (f : Fin 2) (o : Word cfg.bits) (c : Context cfg) :
    (firewallStep f o c).1.hb = c.hb := rfl
@[simp] theorem firewallStep_fbit (f : Fin 2) (o : Word cfg.bits) (c : Context cfg) :
    (firewallStep f o c).1.fbit = c.fbit := rfl
@[simp] theorem firewallStep_filled (f : Fin 2) (o : Word cfg.bits) (c : Context cfg) :
    (firewallStep f o c).1.filled = c.filled := rfl
@[simp] theorem firewallStep_fw (f : Fin 2) (o : Word cfg.bits) (c : Context cfg) :
    (firewallStep f o c).1.fw = c.fw.set f
      { seed := (coreRound c.fw[f].seed (c.fw[f].lcg ^^^ o) c.fh[c.fc]).seed
        lcg := (coreRound c.fw[f].seed (c.fw[f].lcg ^^^ o) c.fh[c.fc]).lcg } := rfl
@[simp] theorem firewallStep_fh (f : Fin 2) (o : Word cfg.bits) (c : Context cfg) :
    (firewallStep f o c).1.fh = c.fh.set c.fc (coreRound c.fw[f].seed (c.fw[f].lcg ^^^ o) c.fh[c.fc]).hash := rfl
@[simp] theorem firewallStep_fc (f : Fin 2) (o : Word cfg.bits) (c : Context cfg) :
    (firewallStep f o c).1.fc = c.fc + 1 := rfl
@[simp] theorem firewallStep_kb (f : Fin 2) (o : Word cfg.bits) (c : Context cfg) :
    (firewallStep f o c).1.kb = c.kb := rfl
@[simp] theorem firewallStep_out (f : Fin 2) (o : Word cfg.bits) (c : Context cfg) :
    (firewallStep f o c).2 = (coreRound c.fw[f].seed (c.fw[f].lcg ^^^ o) c.fh[c.fc]).out := rfl
/-! ### firewallInit -/

@[simp] theorem firewallInit_st (c : Context cfg) :
    (firewallInit c).st = c.st := rfl
@[simp] theorem firewallInit_n (c : Context cfg) :
    (firewallInit c).n = c.n := rfl
@[simp] theorem firewallInit_lanes (c : Context cfg) :
    (firewallInit c).lanes = c.lanes := rfl
@[simp] theorem firewallInit_hash (c : Context cfg) :
    (firewallInit c).hash = c.hash := rfl
@[simp] theorem firewallInit_cur (c : Context cfg) :
    (firewallInit c).cur = c.cur := rfl
@[simp] theorem firewallInit_lane (c : Context cfg) :
    (firewallInit c).lane = c.lane := rfl
@[simp] theorem firewallInit_hb (c : Context cfg) :
    (firewallInit c).hb = c.hb := rfl
@[simp] theorem firewallInit_fbit (c : Context cfg) :
    (firewallInit c).fbit = c.fbit := rfl
@[simp] theorem firewallInit_filled (c : Context cfg) :
    (firewallInit c).filled = c.filled := rfl
@[simp] theorem firewallInit_fw (c : Context cfg) :
    (firewallInit c).fw = Vector.replicate 2 { seed := (zeroState cfg.bits).seed, lcg :=
        (zeroState cfg.bits).lcg } := rfl
@[simp] theorem firewallInit_fh (c : Context cfg) :
    (firewallInit c).fh = #v[(zeroState cfg.bits).hash, 0, 0] := rfl
@[simp] theorem firewallInit_fc (c : Context cfg) :
    (firewallInit c).fc = 0 := rfl
@[simp] theorem firewallInit_kb (c : Context cfg) :
    (firewallInit c).kb = c.kb := rfl

end Sys2Proof.Machine
end

