-- ==== Sys2Proof/Laws/Loader.lean ====
section
/-! SUPPORT. AbsorbWord, UpdateBytes and blank rounds: what they change and what they leave. -/

namespace Sys2Proof.Machine

variable {cfg : Config}

/-! ### AbsorbWord (42_absorption.md R145) -/

/-- AbsorbWord neither reads nor writes ST, the loader, the firewall and kb. -/
theorem absorbWord_side (m : Word cfg.bits) (c : Context cfg) (st hb fbit fw fh fc kb) :
    absorbWord m { c with st := st, hb := hb, fbit := fbit, fw := fw, fh := fh, fc := fc, kb := kb } =
      { absorbWord m c with st := st, hb := hb, fbit := fbit, fw := fw, fh := fh, fc := fc, kb := kb } := rfl

/-- AbsorbWord leaves every slot but the cursor's as it was. -/
theorem absorbWord_hashAt_ne (m : Word cfg.bits) (c : Context cfg) {i : Nat} (h : i ≠ c.cur) :
    hashAt (absorbWord m c) i = hashAt c i := by
  simp only [hashAt, absorbWord, laneRound, List.getD_eq_getElem?_getD]
  rw [List.getElem?_set_ne (Ne.symm h)]

@[simp] theorem absorbWords_nil (c : Context cfg) : absorbWords [] c = c := rfl

@[simp] theorem absorbWords_append (a b : List (Word cfg.bits)) (c : Context cfg) :
    absorbWords (a ++ b) c = absorbWords b (absorbWords a c) := List.foldl_append

@[simp] theorem absorbWords_singleton (w : Word cfg.bits) (c : Context cfg) : absorbWords [w] c = absorbWord w c :=
    rfl

/-- Absorbing words neither reads nor writes ST, the loader, the firewall and kb. -/
theorem absorbWords_side (ws : List (Word cfg.bits)) (c : Context cfg) (st hb fbit fw fh fc kb) :
    absorbWords ws { c with st := st, hb := hb, fbit := fbit, fw := fw, fh := fh, fc := fc, kb := kb } =
      { absorbWords ws c with st := st, hb := hb, fbit := fbit, fw := fw, fh := fh, fc := fc, kb := kb } := by
  induction ws generalizing c with
  | nil => rfl
  | cons w ws ih => exact ih (absorbWord w c)

/-- What absorbing words leaves as it was. -/
theorem absorbWords_frame (ws : List (Word cfg.bits)) (c : Context cfg) :
    absorbWords ws c =
      { absorbWords ws c with
        st := c.st, n := c.n, hb := c.hb, fbit := c.fbit, fw := c.fw, fh := c.fh, fc := c.fc, kb := c.kb } := by
  induction ws generalizing c with
  | nil => rfl
  | cons w ws ih => exact ih (absorbWord w c)

theorem absorbWords_n (ws : List (Word cfg.bits)) (c : Context cfg) : (absorbWords ws c).n = c.n := by
  rw [absorbWords_frame]

theorem absorbWords_hb (ws : List (Word cfg.bits)) (c : Context cfg) : (absorbWords ws c).hb = c.hb := by
  rw [absorbWords_frame]

theorem absorbWords_st (ws : List (Word cfg.bits)) (c : Context cfg) : (absorbWords ws c).st = c.st := by
  rw [absorbWords_frame]

/-- The cursor advances by the number of words. -/
theorem absorbWords_cur (ws : List (Word cfg.bits)) (c : Context cfg) (h : c.cur < c.n) :
    (absorbWords ws c).cur = (c.cur + ws.length) % c.n := by
  induction ws using List.reverseRecOn with
  | nil => simp [Nat.mod_eq_of_lt h]
  | append_singleton ws w ih =>
    rw [absorbWords_append, absorbWords_singleton]
    show ((absorbWords ws c).cur + 1) % (absorbWords ws c).n = _
    rw [ih, absorbWords_n, Nat.mod_add_mod, List.length_append, List.length_singleton, Nat.add_assoc]

/-- The active lane advances by the number of words. -/
theorem absorbWords_lane (ws : List (Word cfg.bits)) (c : Context cfg) (h : c.lane < cfg.p) :
    (absorbWords ws c).lane = (c.lane + ws.length) % cfg.p := by
  induction ws using List.reverseRecOn with
  | nil => simp [Nat.mod_eq_of_lt h]
  | append_singleton ws w ih =>
    rw [absorbWords_append, absorbWords_singleton]
    show ((absorbWords ws c).lane + 1) % _ = _
    rw [ih, Nat.mod_add_mod, List.length_append, List.length_singleton, Nat.add_assoc]

/-- FILLED is set exactly when a word lands in slot N - 1 (10_state.md R28). -/
theorem absorbWords_filled (ws : List (Word cfg.bits)) (c : Context cfg) (h : c.cur < c.n) :
    (absorbWords ws c).filled = (c.filled || decide (c.n ≤ c.cur + ws.length)) := by
  induction ws using List.reverseRecOn with
  | nil => simp; omega
  | append_singleton ws w ih =>
    rw [absorbWords_append, absorbWords_singleton]
    show ((absorbWords ws c).filled || decide ((absorbWords ws c).cur + 1 = (absorbWords ws c).n)) = _
    rw [ih, absorbWords_n, absorbWords_cur ws c h, List.length_append, List.length_singleton, Bool.or_assoc,
        ← Bool.decide_or]
    congr 2
    rw [eq_iff_iff]
    by_cases hc : c.cur + ws.length < c.n
    · rw [Nat.mod_eq_of_lt hc]; omega
    · constructor
      · omega
      · intro _; exact Or.inl (by omega)

theorem absorbWords_hash_length (ws : List (Word cfg.bits)) (c : Context cfg) : (absorbWords ws c).hash.length =
    c.hash.length := by
  induction ws generalizing c with
  | nil => rfl
  | cons w ws ih =>
    rw [show absorbWords (w :: ws) c = absorbWords ws (absorbWord w c) from rfl, ih]
    simp [absorbWord, laneRound]

theorem absorbWords_lanes_length (ws : List (Word cfg.bits)) (c : Context cfg) : (absorbWords ws c).lanes.length =
    c.lanes.length := by
  induction ws generalizing c with
  | nil => rfl
  | cons w ws ih =>
    rw [show absorbWords (w :: ws) c = absorbWords ws (absorbWord w c) from rfl, ih]
    simp [absorbWord, laneRound]

/-- A slot no word lands in keeps its word. -/
theorem absorbWords_hashAt (ws : List (Word cfg.bits)) (c : Context cfg) (h : c.cur < c.n) {i : Nat}
    (hi : ∀ k, k < ws.length → i ≠ (c.cur + k) % c.n) : hashAt (absorbWords ws c) i = hashAt c i := by
  induction ws using List.reverseRecOn with
  | nil => rfl
  | append_singleton ws w ih =>
    rw [absorbWords_append, absorbWords_singleton, absorbWord_hashAt_ne, ih]
    · intro k hk; exact hi k (by simp; omega)
    · rw [absorbWords_cur ws c h]; exact hi _ (by simp)

/-! ### Full words and leftover bytes (41_word_loader.md R120) -/

theorem fullWords_length (m : List Byte) : (fullWords cfg m).length = m.length / cfg.bytes := by simp [fullWords]

theorem leftover_length (m : List Byte) : (leftover cfg m).length = m.length % cfg.bytes := by
  rw [leftover, List.length_drop]; have := Nat.div_add_mod m.length cfg.bytes; rw [Nat.mul_comm] at this; omega

theorem leftover_length_lt (m : List Byte) : (leftover cfg m).length < cfg.bytes := by
  rw [leftover_length]; exact Nat.mod_lt _ (bytes_pos cfg)

theorem fullWords_of_lt {m : List Byte} (h : m.length < cfg.bytes) : fullWords cfg m = [] := by
  simp [fullWords, Nat.div_eq_of_lt h]

theorem leftover_of_lt {m : List Byte} (h : m.length < cfg.bytes) : leftover cfg m = m := by
  simp [leftover, Nat.div_eq_of_lt h]

/-- A word that lies in the front part does not see the rest. -/
theorem wordOperand_append_left {m : List Byte} (b : List Byte) {k : Nat} (h : (k + 1) * cfg.bytes ≤ m.length) :
    wordOperand cfg k (m ++ b) = wordOperand cfg k m := by
  have e : (k + 1) * cfg.bytes = k * cfg.bytes + cfg.bytes := by ring
  rw [wordOperand, wordOperand, List.drop_append_of_le_length (by omega),
      List.take_append_of_le_length (by simp; omega)]

/-- One more byte either completes a word or joins the leftover. -/
theorem fullWords_snoc (m : List Byte) (b : Byte) :
    fullWords cfg (m ++ [b]) = fullWords cfg m ++
        (if (leftover cfg m).length + 1 = cfg.bytes then [le cfg.bits (leftover cfg m ++ [b])] else []) ∧
    leftover cfg (m ++ [b]) = (if (leftover cfg m).length + 1 = cfg.bytes then [] else leftover cfg m ++ [b]) := by
  have hB := bytes_pos cfg
  have hdm := Nat.div_add_mod m.length cfg.bytes
  have hr := Nat.mod_lt m.length hB
  set k := m.length / cfg.bytes with hk
  rw [leftover_length]
  have hmap : ∀ j, j < k → wordOperand cfg j (m ++ [b]) = wordOperand cfg j m := fun j hj =>
    wordOperand_append_left [b] (by
      have : (j + 1) * cfg.bytes ≤ k * cfg.bytes := Nat.mul_le_mul_right _ hj
      have := Nat.mul_comm k cfg.bytes; omega)
  by_cases hc : m.length % cfg.bytes + 1 = cfg.bytes
  · have hk' : (m ++ [b]).length / cfg.bytes = k + 1 := by
      rw [List.length_append, List.length_singleton, show m.length + 1 =
          cfg.bytes * (k + 1) by rw [Nat.mul_add]; omega,
        Nat.mul_div_cancel_left _ hB]
    have hmul : (k + 1) * cfg.bytes = m.length + 1 := by
      have : (k + 1) * cfg.bytes = cfg.bytes * k + cfg.bytes := by ring
      omega
    simp only [if_pos hc]
    refine ⟨?_, ?_⟩
    · rw [fullWords, hk', List.range_succ, List.map_append, fullWords, ← hk]
      congr 1
      · exact List.map_congr_left fun j hj => hmap j (List.mem_range.1 hj)
      · simp only [List.map_cons, List.map_nil, wordOperand, leftover, ← hk]
        rw [List.drop_append_of_le_length (by rw [Nat.mul_comm] at hdm; omega), List.take_of_length_le]
        simp; rw [Nat.mul_comm] at hdm; omega
    · rw [leftover, hk', hmul]; simp
  · have hk' : (m ++ [b]).length / cfg.bytes = k := by
      rw [List.length_append, List.length_singleton]
      apply Nat.div_eq_of_lt_le
      · rw [Nat.mul_comm]; omega
      · have : (k + 1) * cfg.bytes = cfg.bytes * k + cfg.bytes := by ring
        omega
    simp only [if_neg hc]
    refine ⟨?_, ?_⟩
    · rw [fullWords, hk', fullWords, ← hk, List.append_nil]
      exact List.map_congr_left fun j hj => hmap j (List.mem_range.1 hj)
    · rw [leftover, hk', leftover, ← hk, List.drop_append_of_le_length (by rw [Nat.mul_comm] at hdm; omega)]

theorem lastBit_snoc (m : List Byte) (b : Byte) : lastBit (m ++ [b]) = b.getLsbD 7 := by simp [lastBit]

/-! ### UpdateBytes (R147) -/

/-- UpdateBytes, once and for all: it absorbs the full words of hb and the data, and keeps the rest in hb. -/
theorem updateBytes_eq (c : Context cfg) (m : List Byte) (h : c.hb.length < cfg.bytes) :
    updateBytes c m = { absorbWords (fullWords cfg (c.hb ++ m)) c with
      hb := leftover cfg (c.hb ++ m), fbit := if m = [] then c.fbit else lastBit m } := by
  induction m using List.reverseRecOn with
  | nil =>
    rw [List.append_nil, fullWords_of_lt h, leftover_of_lt h]; rfl
  | append_singleton m b ih =>
    have hs := fullWords_snoc (cfg := cfg) (c.hb ++ m) b
    rw [List.append_assoc] at hs
    rw [hs.1, hs.2, absorbWords_append, lastBit_snoc, if_neg (show ¬ (m ++ [b] = []) by simp),
      show updateBytes c (m ++ [b]) = updateByte (updateBytes c m) b by simp [updateBytes], ih]
    simp only [updateByte, List.length_append, List.length_singleton]
    split <;> rfl

/-- UpdateBytes of a concatenation. -/
theorem updateBytes_append (c : Context cfg) (a b : List Byte) : updateBytes c (a ++ b) =
    updateBytes (updateBytes c a) b := by
  simp [updateBytes]

theorem updateBytes_st (c : Context cfg) (m : List Byte) : (updateBytes c m).st = c.st := by
  induction m generalizing c with
  | nil => rfl
  | cons b m ih =>
    show (updateBytes (updateByte c b) m).st = _
    rw [ih]; unfold updateByte; simp only; split <;> rfl

theorem updateBytes_n (c : Context cfg) (m : List Byte) : (updateBytes c m).n = c.n := by
  induction m generalizing c with
  | nil => rfl
  | cons b m ih =>
    show (updateBytes (updateByte c b) m).n = _
    rw [ih]; unfold updateByte; simp only; split <;> rfl

/-- UpdateBytes does not look at ST. -/
theorem updateBytes_side_st (c : Context cfg) (m : List Byte) (st) : updateBytes { c with st := st } m =
    { updateBytes c m with st := st } := by
  induction m generalizing c with
  | nil => rfl
  | cons b m ih =>
    have : updateByte { c with st := st } b = { updateByte c b with st := st } := by
      unfold updateByte; simp only; split <;> rfl
    show updateBytes (updateByte { c with st := st } b) m = _
    rw [this, ih]; rfl

/-- UpdateBytes leaves the firewall and kb as they were. -/
theorem updateBytes_fw (m : List Byte) (c : Context cfg) : (updateBytes c m).fw = c.fw ∧ (updateBytes c m).fh =
    c.fh ∧ (updateBytes c m).fc = c.fc ∧ (updateBytes c m).kb = c.kb := by
  induction m generalizing c with
  | nil => exact ⟨rfl, rfl, rfl, rfl⟩
  | cons b m ih =>
    have : (updateByte c b).fw = c.fw ∧ (updateByte c b).fh = c.fh ∧ (updateByte c b).fc = c.fc ∧
        (updateByte c b).kb = c.kb := by
      unfold updateByte; simp only; split <;> exact ⟨rfl, rfl, rfl, rfl⟩
    obtain ⟨h1, h2, h3, h4⟩ := ih (updateByte c b)
    exact ⟨h1.trans this.1, h2.trans this.2.1, h3.trans this.2.2.1, h4.trans this.2.2.2⟩

/-! ### Blank rounds (43_finalization.md R172) -/

/-- What blank rounds leave as it was. -/
theorem blankRounds_frame (k : Nat) (c : Context cfg) :
    repeatN blankRound k c =
      { c with
        lanes := (repeatN blankRound k c).lanes
        hash := (repeatN blankRound k c).hash
        cur := (repeatN blankRound k c).cur } := by
  induction k generalizing c with
  | zero => rfl
  | succ k ih => exact ih (blankRound c)

/-- Blank rounds neither read nor write ST, the loader, FILLED, the firewall and kb. -/
theorem blankRounds_side (k : Nat) (c : Context cfg) (st hb fbit filled fw fh fc kb) :
    repeatN blankRound k
        { c with st := st, hb := hb, fbit := fbit, filled := filled, fw := fw, fh := fh, fc := fc, kb := kb } =
      { repeatN blankRound k c with
        st := st, hb := hb, fbit := fbit, filled := filled, fw := fw, fh := fh, fc := fc, kb := kb } := by
  induction k generalizing c with
  | zero => rfl
  | succ k ih => exact ih (blankRound c)

theorem blankRounds_n (k : Nat) (c : Context cfg) : (repeatN blankRound k c).n = c.n := by rw [blankRounds_frame]

theorem blankRounds_lane (k : Nat) (c : Context cfg) : (repeatN blankRound k c).lane = c.lane :=
    by rw [blankRounds_frame]

/-- The cursor advances by the number of blank rounds. -/
theorem blankRounds_cur (k : Nat) (c : Context cfg) (h : c.cur < c.n) : (repeatN blankRound k c).cur =
    (c.cur + k) % c.n := by
  induction k with
  | zero => simp [repeatN, Nat.mod_eq_of_lt h]
  | succ k ih =>
    rw [repeatN_succ']
    show ((repeatN blankRound k c).cur + 1) % (repeatN blankRound k c).n = _
    rw [ih, blankRounds_n, Nat.mod_add_mod, Nat.add_assoc]

theorem blankRounds_hash_length (k : Nat) (c : Context cfg) : (repeatN blankRound k c).hash.length =
    c.hash.length := by
  induction k with
  | zero => rfl
  | succ k ih => rw [repeatN_succ']; simpa [blankRound, sweepSlot] using ih

theorem blankRounds_lanes_length (k : Nat) (c : Context cfg) : (repeatN blankRound k c).lanes.length =
    c.lanes.length := by
  induction k with
  | zero => rfl
  | succ k ih => rw [repeatN_succ']; simpa [blankRound, sweepSlot, sweepLanes_length] using ih

/-- A blank round leaves every slot but the cursor's as it was. -/
theorem blankRound_hashAt_ne (c : Context cfg) {i : Nat} (h : i ≠ c.cur) : hashAt (blankRound c) i = hashAt c i := by
  simp only [hashAt, blankRound, sweepSlot, List.getD_eq_getElem?_getD]
  rw [List.getElem?_set_ne (Ne.symm h)]

/-- The slot at the cursor is swept. -/
theorem blankRound_hashAt_cur (c : Context cfg) (h : c.cur < c.hash.length) :
    hashAt (blankRound c) c.cur = (sweepLanes c.lanes (hashAt c c.cur)).hash := by
  simp [hashAt, blankRound, sweepSlot, List.getD_eq_getElem?_getD, h]

/-- A slot no blank round reaches keeps its word. -/
theorem blankRounds_hashAt_ne (k : Nat) (c : Context cfg) (h : c.cur < c.n) {i : Nat}
    (hi : ∀ j, j < k → i ≠ (c.cur + j) % c.n) : hashAt (repeatN blankRound k c) i = hashAt c i := by
  induction k with
  | zero => rfl
  | succ k ih =>
    rw [repeatN_succ', blankRound_hashAt_ne, ih]
    · intro j hj; exact hi j (by omega)
    · rw [blankRounds_cur k c h]; exact hi k (by omega)

theorem flush_n (c : Context cfg) : (flush c).n = c.n := by rw [flush, blankRounds_n]; rfl

/-! ### Squeeze (R174) and the warm-up (42_absorption.md R144) -/

/-- k output words are k times B bytes. -/
theorem squeezeWords_length (k : Nat) (c : Context cfg) : (squeezeWords k c).2.length = k * cfg.bytes := by
  induction k generalizing c with
  | zero => simp [squeezeWords]
  | succ k ih =>
    show (bytesLE _ ++ (squeezeWords k _).2).length = _
    rw [List.length_append, ih, bytesLE_length]; show cfg.bytes + _ = _; ring

theorem squeezeWords_n (k : Nat) (c : Context cfg) : (squeezeWords k c).1.n = c.n := by
  induction k generalizing c with
  | zero => rfl
  | succ k ih => exact ih _

/-- The squeeze does not look at the firewall. -/
theorem squeezeWords_side (k : Nat) (c : Context cfg) (fw fh fc) :
    squeezeWords k { c with fw := fw, fh := fh, fc := fc } =
      ({ (squeezeWords k c).1 with fw := fw, fh := fh, fc := fc }, (squeezeWords k c).2) := by
  induction k generalizing c with
  | zero => rfl
  | succ k ih =>
    have h : squeezeWords (k + 1) { c with fw := fw, fh := fh, fc := fc } =
        ((squeezeWords k { (sweepSlot c).1 with fw := fw, fh := fh, fc := fc }).1,
          bytesLE (sweepSlot c).2 ++ (squeezeWords k { (sweepSlot c).1 with fw := fw, fh := fh, fc := fc }).2) := rfl
    rw [h, ih]
    rfl

theorem warmUpLanes_length {w : Nat} (seed : Word w) (k : Nat) (h : Word w) : (warmUpLanes seed k h).1.length =
    k := by
  induction k generalizing h with
  | zero => rfl
  | succ k ih => simp [warmUpLanes, ih]

/-- The warm-up as a chain of Hash[0] values, one for each lane. -/
theorem warmUp_chain {w : Nat} (seed : Word w) (k : Nat) (h0 : Word w) :
    ∃ h : Nat → Word w, h 0 = h0 ∧ (warmUpLanes seed k h0).2 = h k ∧
      ∀ j, j < k →
        (warmUpLanes seed k h0).1[j]? =
          some
            { seed := (repeatN carryRound 5 { seed := seed, lcg := 0, hash := h j }).seed
              lcg := (repeatN carryRound 5 { seed := seed, lcg := 0, hash := h j }).lcg } ∧
        h (j + 1) = (repeatN carryRound 5 { seed := seed, lcg := 0, hash := h j }).hash := by
  induction k generalizing h0 with
  | zero => exact ⟨fun _ => h0, rfl, rfl, fun j hj => by omega⟩
  | succ k ih =>
    obtain ⟨h, e0, e1, e2⟩ := ih (repeatN carryRound 5 { seed := seed, lcg := 0, hash := h0 }).hash
    refine ⟨fun j => match j with | 0 => h0 | j + 1 => h j, rfl, e1, fun j hj => ?_⟩
    cases j with
    | zero => exact ⟨rfl, e0⟩
    | succ j => exact e2 j (by omega)

end Sys2Proof.Machine
end

