-- ==== Sys2Proof/Laws/Keystream.lean ====
section
/-! SUPPORT. Keystream blocks and KXOR's loop. -/

namespace Sys2Proof.Machine

variable {cfg : Config}

/-! ### GenBlock (45_keystream.md R214) -/

/-- A block is two words. -/
theorem genBlock_length (c : Context cfg) : (genBlock c).2.length = 2 * cfg.bytes := by
  show (bytesLE _ ++ bytesLE _).length = _
  rw [List.length_append, bytesLE_length, bytesLE_length]
  show cfg.bytes + cfg.bytes = _
  ring

/-- GenBlock neither reads nor writes ST, the loader, FILLED and kb. -/
theorem genBlock_side (c : Context cfg) (st hb fbit filled kb) :
    genBlock { c with st := st, hb := hb, fbit := fbit, filled := filled, kb := kb } =
      ({ (genBlock c).1 with st := st, hb := hb, fbit := fbit, filled := filled, kb := kb }, (genBlock c).2) := rfl

/-- What GenBlock leaves as it was. -/
theorem genBlock_frame (c : Context cfg) : (genBlock c).1 =
    { (genBlock c).1 with st := c.st, n := c.n, hb := c.hb, fbit := c.fbit, filled := c.filled, kb := c.kb } := rfl

theorem genBlock_kb (c : Context cfg) (kb) : genBlock { c with kb := kb } = ({ (genBlock c).1 with kb := kb },
    (genBlock c).2) := rfl

/-- The blocks to come do not depend on the leftover. -/
theorem keystreamBlocks_kb (k : Nat) (c : Context cfg) (kb) : keystreamBlocks k { c with kb := kb } =
    keystreamBlocks k c := by
  induction k generalizing c with
  | zero => rfl
  | succ k ih => rw [keystreamBlocks, keystreamBlocks, genBlock_kb]; simp only; rw [ih]

theorem keystreamBlocks_length (k : Nat) (c : Context cfg) : (keystreamBlocks k c).length = 2 * cfg.bytes * k := by
  induction k generalizing c with
  | zero => rfl
  | succ k ih => rw [keystreamBlocks, List.length_append, genBlock_length, ih]; ring

/-- More blocks only append. -/
theorem keystreamBlocks_prefix (k : Nat) (c : Context cfg) : keystreamBlocks k c <+: keystreamBlocks (k + 1) c := by
  induction k generalizing c with
  | zero => exact List.nil_prefix
  | succ k ih =>
    rw [keystreamBlocks, keystreamBlocks]
    exact (List.prefix_append_right_inj _).2 (ih _)

/-! ### KXOR's loop (R215, R216) -/

/-- What a refill does: nothing while a leftover byte is at hand, else one block. -/
theorem refill_cases (c : Context cfg) :
    (∃ b bs, c.kb = b :: bs ∧ refill c = c) ∨
    (c.kb = [] ∧ refill c = { (genBlock c).1 with kb := (genBlock c).2 } ∧ ∃ b bs, (genBlock c).2 = b :: bs) := by
  unfold refill
  split
  · rename_i h
    refine .inr ⟨h, rfl, ?_⟩
    have hl := genBlock_length c
    have hB := bytes_pos cfg
    match h2 : (genBlock c).2 with
    | [] => rw [h2, List.length_nil] at hl; omega
    | b :: bs => exact ⟨b, bs, rfl⟩
  · rename_i b bs h
    exact .inl ⟨b, bs, h, rfl⟩

theorem refill_side (c : Context cfg) (st hb fbit filled) :
    refill { c with st := st, hb := hb, fbit := fbit, filled := filled } =
      { refill c with st := st, hb := hb, fbit := fbit, filled := filled } := by
  rcases refill_cases c with ⟨b, bs, hkb, hr⟩ | ⟨hkb, hr, b, bs, hg⟩
  · rw [hr]; cases c; subst hkb; rfl
  · rw [hr]; cases c; subst hkb; rfl

theorem xorBytes_cons (d : Byte) (ds : List Byte) (c : Context cfg) : xorBytes (d :: ds) c =
    ((xorBytes ds { refill c with kb := (refill c).kb.tail }).1, (d ^^^ (refill c).kb.headD 0) ::
      (xorBytes ds { refill c with kb := (refill c).kb.tail }).2) := rfl

/-- Two data strings one after the other. -/
theorem xorBytes_append (a b : List Byte) (c : Context cfg) : xorBytes (a ++ b) c =
    ((xorBytes b (xorBytes a c).1).1, (xorBytes a c).2 ++ (xorBytes b (xorBytes a c).1).2) := by
  induction a generalizing c with
  | nil => rfl
  | cons d ds ih => rw [List.cons_append, xorBytes_cons, ih, xorBytes_cons]; rfl

theorem xorBytes_length (a : List Byte) (c : Context cfg) : (xorBytes a c).2.length = a.length := by
  induction a generalizing c with
  | nil => rfl
  | cons d ds ih => rw [xorBytes_cons, List.length_cons, ih, List.length_cons]

/-- What the loop emits: the data XOR the leftover and the blocks to come. -/
theorem xorBytes_out (data : List Byte) (c : Context cfg) (K : Nat)
    (h : data.length ≤ (c.kb ++ keystreamBlocks K c).length) :
    (xorBytes data c).2 = List.zipWith (· ^^^ ·) data (c.kb ++ keystreamBlocks K c) := by
  induction data generalizing c K with
  | nil => rfl
  | cons d ds ih =>
    rw [xorBytes_cons]
    rcases refill_cases c with ⟨b, bs, hkb, hr⟩ | ⟨hkb, hr, b, bs, hg⟩
    · rw [hr, hkb]
      simp only [List.tail_cons, List.headD_cons, List.cons_append, List.zipWith_cons_cons]
      rw [ih { c with kb := bs } K]
      · rw [keystreamBlocks_kb]
      · rw [keystreamBlocks_kb]; rw [hkb] at h; simp at h ⊢; omega
    · cases K with
      | zero => simp [hkb, keystreamBlocks] at h
      | succ K =>
        rw [hr]
        simp only [hg, List.tail_cons, List.headD_cons, hkb, List.nil_append, keystreamBlocks, List.cons_append,
            List.zipWith_cons_cons]
        rw [ih { (genBlock c).1 with kb := bs } K]
        · rw [keystreamBlocks_kb]
        · rw [keystreamBlocks_kb]; rw [hkb, keystreamBlocks, hg] at h; simp at h ⊢; omega

/-- What the loop leaves: the rest of the same keystream. -/
theorem xorBytes_rest (data : List Byte) (c : Context cfg) (k : Nat) :
    (xorBytes data c).1.kb ++ keystreamBlocks k (xorBytes data c).1 <+:
      (c.kb ++ keystreamBlocks (k + data.length) c).drop data.length := by
  induction data generalizing c with
  | nil => exact List.prefix_rfl
  | cons d ds ih =>
    rw [xorBytes_cons]
    rcases refill_cases c with ⟨b, bs, hkb, hr⟩ | ⟨hkb, hr, b, bs, hg⟩
    · rw [hr, hkb]
      refine (ih { c with kb := bs }).trans ?_
      rw [keystreamBlocks_kb]
      simp only [List.length_cons, List.cons_append, List.drop_succ_cons, ← Nat.add_assoc]
      exact ((List.prefix_append_right_inj _).2 (keystreamBlocks_prefix _ _)).drop _
    · rw [hr]
      refine (ih { (genBlock c).1 with kb := (genBlock c).2.tail }).trans ?_
      rw [keystreamBlocks_kb, hkb, List.length_cons, ← Nat.add_assoc, keystreamBlocks, hg]
      exact List.prefix_rfl

/-- The counters after the loop, by the number of blocks it generated. -/
theorem xorBytes_counters (data : List Byte) (c : Context cfg) (hn : c.cur < c.n) (hp : c.lane < cfg.p) (hk :
    c.kb.length < 2 * cfg.bytes) :
    ∃ b, (xorBytes data c).1.kb.length + data.length = c.kb.length + 2 * cfg.bytes * b ∧
      (xorBytes data c).1.kb.length < 2 * cfg.bytes ∧
      (xorBytes data c).1.cur = (c.cur + 2 * b) % c.n ∧ (xorBytes data c).1.lane = (c.lane + 2 * b) % cfg.p ∧
      (xorBytes data c).1.fc.val = (c.fc.val + 2 * b) % 3 := by
  induction data generalizing c with
  | nil => exact ⟨0, by simp [xorBytes], hk, by simp [xorBytes, Nat.mod_eq_of_lt hn], by simp [xorBytes,
      Nat.mod_eq_of_lt hp], by
      simp [xorBytes, Nat.mod_eq_of_lt c.fc.isLt]⟩
  | cons d ds ih =>
    rw [xorBytes_cons]
    rcases refill_cases c with ⟨b, bs, hkb, hr⟩ | ⟨hkb, hr, b, bs, hg⟩
    · rw [hr, hkb]
      obtain ⟨q, h1, h2, h3⟩ := ih { c with kb := bs } hn hp (by simp [hkb] at hk ⊢; omega)
      exact ⟨q, by simp at h1 ⊢; omega, h2, h3⟩
    · rw [hr, hkb]
      have e1 : (genBlock c).1.cur = (c.cur + 2) % c.n := by
        show ((c.cur + 1) % c.n + 1) % c.n = _; rw [Nat.mod_add_mod]
      have e2 : (genBlock c).1.lane = (c.lane + 2) % cfg.p := by
        show ((c.lane + 1) % cfg.p + 1) % cfg.p = _; rw [Nat.mod_add_mod]
      have e3 : (genBlock c).1.fc.val = (c.fc.val + 2) % 3 := by
        show (c.fc + 1 + 1 : Fin 3).val = _; simp [Fin.val_add]
      have hl := genBlock_length c
      obtain ⟨q, h1, h2, h3, h4, h5⟩ := ih { (genBlock c).1 with kb := (genBlock c).2.tail }
        (by show (genBlock c).1.cur < c.n; rw [e1]; exact Nat.mod_lt _ (by omega))
        (by show (genBlock c).1.lane < cfg.p; rw [e2]; exact Nat.mod_lt _ (by omega))
        (by show (genBlock c).2.tail.length < _; rw [List.length_tail, hl]; have := bytes_pos cfg; omega)
      refine ⟨q + 1, ?_, h2, ?_, ?_, ?_⟩
      · have h1' : (xorBytes ds { (genBlock c).1 with kb := (genBlock c).2.tail }).1.kb.length + ds.length =
          (genBlock c).2.tail.length + 2 * cfg.bytes * q := h1
        rw [List.length_tail, hl] at h1'
        have hB := bytes_pos cfg
        have e : 2 * cfg.bytes * (q + 1) = 2 * cfg.bytes * q + 2 * cfg.bytes := by ring
        show (xorBytes ds { (genBlock c).1 with kb := (genBlock c).2.tail }).1.kb.length + (ds.length + 1) =
            0 + 2 * cfg.bytes * (q + 1)
        rw [e]
        omega
      · rw [h3]; show ((genBlock c).1.cur + 2 * q) % c.n = _; rw [e1, Nat.mod_add_mod]; congr 1; ring
      · rw [h4]; show ((genBlock c).1.lane + 2 * q) % cfg.p = _; rw [e2, Nat.mod_add_mod]; congr 1; ring
      · rw [h5]; show ((genBlock c).1.fc.val + 2 * q) % 3 = _; rw [e3, Nat.mod_add_mod]; congr 1; ring

/-- What the loop leaves as it was. -/
theorem xorBytes_frame (data : List Byte) (c : Context cfg) : (xorBytes data c).1 =
    { (xorBytes data c).1 with st := c.st, n := c.n, hb := c.hb, fbit := c.fbit, filled := c.filled } := by
  induction data generalizing c with
  | nil => rfl
  | cons d ds ih =>
    rw [xorBytes_cons]
    rcases refill_cases c with ⟨b, bs, hkb, hr⟩ | ⟨hkb, hr, b, bs, hg⟩
    · rw [hr]; exact ih { c with kb := c.kb.tail }
    · rw [hr]; exact ih { (genBlock c).1 with kb := (genBlock c).2.tail }

theorem xorBytes_st (m : List Byte) (c : Context cfg) : (xorBytes m c).1.st = c.st := by rw [xorBytes_frame]

/-- The loop does not look at ST, the loader and FILLED. -/
theorem xorBytes_side (data : List Byte) (c : Context cfg) (st hb fbit filled) :
    xorBytes data { c with st := st, hb := hb, fbit := fbit, filled := filled } =
      ({ (xorBytes data c).1 with st := st, hb := hb, fbit := fbit, filled := filled }, (xorBytes data c).2) := by
  induction data generalizing c with
  | nil => rfl
  | cons d ds ih =>
    rw [xorBytes_cons, xorBytes_cons, refill_side]
    simp only
    rw [ih { refill c with kb := (refill c).kb.tail }]

end Sys2Proof.Machine
end

