-- ==== Sys2Proof/Laws/Exec.lean ====
section
/-! SUPPORT. What exec and step can answer. -/

namespace Sys2Proof.Machine

/-! ### exec -/

/-- Every command is rejected or accepted (60_exceptions.md R240, R243). -/
theorem exec_outcome (i : Instr) (s : State) :
    (∃ e, e ≠ .ok ∧ exec i s = .next (reject e s)) ∨ (∃ c out, exec i s = .next (accept s c out)) := by
  cases i <;> simp only [exec]
  case hinit iv sd len =>
    unfold execHinit; split
    · exact .inl ⟨_, by simp, rfl⟩
    · split
      · exact .inl ⟨_, by simp, rfl⟩
      · exact .inr ⟨_, _, rfl⟩
  case hupd n =>
    unfold execHupd; split
    · exact .inr ⟨_, _, rfl⟩
    · exact .inl ⟨_, by simp, rfl⟩
  case hfin =>
    unfold execHfin; split
    · exact .inr ⟨_, _, rfl⟩
    · exact .inl ⟨_, by simp, rfl⟩
  case kinit k n =>
    unfold execKinit; split
    · exact .inl ⟨_, by simp, rfl⟩
    · split
      · exact .inl ⟨_, by simp, rfl⟩
      · split
        · exact .inl ⟨_, by simp, rfl⟩
        · split
          · exact .inl ⟨_, by simp, rfl⟩
          · exact .inr ⟨_, _, rfl⟩
  case kxor n =>
    unfold execKxor; split
    · exact .inr ⟨_, _, rfl⟩
    · exact .inl ⟨_, by simp, rfl⟩
  case kfin =>
    unfold execKfin; split
    · exact .inr ⟨_, _, rfl⟩
    · exact .inl ⟨_, by simp, rfl⟩
  case round => exact .inr ⟨_, _, rfl⟩

/-- A next state with another port. -/
def withPort (p : List HostAction) : Host.Outcome State Fault Refusal → Host.Outcome State Fault Refusal
  | .next s => .next { s with port := p }
  | .fault f => .fault f
  | .refused r => .refused r

/-- exec does not look at the port. -/
theorem exec_port (i : Instr) (s : State) (p : List HostAction) : exec i { s with port := p } =
    withPort p (exec i s) := by
  cases i <;> simp only [exec, execHinit, execHupd, execHfin, execKinit, execKxor, execKfin, execRound]
  all_goals (repeat' split) <;> rfl

theorem runCommand_port (cmd : BitVec 32) (s : State) (p : List HostAction) :
    runCommand cmd { s with port := p } = withPort p (runCommand cmd s) := by
  unfold runCommand; split
  · exact exec_port _ s p
  · rfl

/-! ### The checks (R242) -/

/-- The output lengths HINIT rejects. -/
theorem badOut {cfg : Config} {len : Nat} : badOutLen cfg len = true ↔ (len = 0 ∨ len % cfg.bytes ≠ 0 ∨
    cfg.nmax * cfg.bytes < len) := by
  simp [badOutLen, or_assoc]

/-- The key lengths KINIT rejects. -/
theorem badKey {k : Nat} : badKeyLen k = true ↔ (k < 16 ∨ 128 < k ∨ k % 8 ≠ 0) := by
  simp only [badKeyLen, or_assoc, Bool.or_eq_true, decide_eq_true_eq]; rfl

/-- The nonce lengths KINIT rejects. -/
theorem badNonce {k : Nat} : badNonceLen k = true ↔ (96 < k ∨ k % 8 ≠ 0) := by
  simp only [badNonceLen, Bool.or_eq_true, decide_eq_true_eq]; rfl

/-- The masks of R242 catch exactly the reserved fields of 30_encoding.md R74. -/
theorem reservedMask_iff (cmd : BitVec 32) (h : ¬ (opcodeOf cmd = 0 ∨ 8 ≤ opcodeOf cmd)) :
    cmd &&& reservedMask (opcodeOf cmd) = 0 ↔ reservedField (opcodeOf cmd) cmd = 0 := by
  have h1 : cmd.toNat &&& 0x003F0000 = cmd.toNat / 2 ^ 16 % 2 ^ 6 * 2 ^ 16 := and_field _ 6 16
  have h2 : cmd.toNat &&& 0x00FFFFFF = cmd.toNat / 2 ^ 0 % 2 ^ 24 * 2 ^ 0 := and_field _ 24 0
  have h3 : cmd.toNat &&& 0x00FF0000 = cmd.toNat / 2 ^ 16 % 2 ^ 8 * 2 ^ 16 := and_field _ 8 16
  have : opcodeOf cmd = 1 ∨ opcodeOf cmd = 2 ∨ opcodeOf cmd = 3 ∨ opcodeOf cmd = 4 ∨ opcodeOf cmd = 5 ∨
      opcodeOf cmd = 6 ∨ opcodeOf cmd = 7 := by omega
  rcases this with e | e | e | e | e | e | e <;>
    simp [e, reservedMask, reservedField, ← BitVec.toNat_inj, h1, h2, h3, bitField_eq]

/-! ### step -/

/-- A step on a transaction whose payload fits. -/
theorem step_transaction {s : State} {t : Transaction} {rest : List HostAction} (hp : s.port = .transaction t :: rest)
    (hl : t.payload.length = payloadLength s.cfg.bytes t.cmd) :
    step s = runCommand t.cmd (beginTransaction t rest s) := by
  simp [step, hp, payloadFits, hl]

/-- What a step can answer when it answers a next state: one case per action of the host, and the empty port. -/
theorem step_cases {s t : State} (h : step s = .next t) :
    (s.port = [] ∧ t = s) ∨
    (∃ x rest, s.port = .reset x :: rest ∧ t = applyReset rest s) ∨
    (∃ k rest, s.port = .take k :: rest ∧ t = takeOutput k rest s) ∨
    (∃ x rest, s.port = .transaction x :: rest ∧ x.payload.length = payloadLength s.cfg.bytes x.cmd ∧
      runCommand x.cmd (beginTransaction x rest s) = .next t) := by
  unfold step at h
  split at h
  · rename_i hp
    exact .inl ⟨hp, by cases h; rfl⟩
  · rename_i x rest hp
    exact .inr (.inl ⟨x, rest, hp, by cases h; rfl⟩)
  · rename_i k rest hp
    exact .inr (.inr (.inl ⟨k, rest, hp, by cases h; rfl⟩))
  · rename_i x rest hp
    split at h
    · rename_i hf
      exact .inr (.inr (.inr ⟨x, rest, hp, by simpa [payloadFits] using hf, h⟩))
    · exact absurd h (by simp)

/-- The number a concatenation of bit strings spells. -/
theorem append_toNat {m n : Nat} (a : BitVec m) (b : BitVec n) : (a ++ b).toNat = a.toNat * 2 ^ n + b.toNat := by
  rw [BitVec.toNat_append, Nat.shiftLeft_eq, ← Nat.shiftLeft_eq, Nat.shiftLeft_add_eq_or_of_lt b.isLt]

/-! ### Runs -/

theorem run_succ (k : Nat) (s : State) : stepN (k + 1) s =
    match step s with
    | .next s' => stepN k s'
    | .fault r => .fault r
    | .refused r => .refused r := rfl

theorem hostRun_next (M : Host.Core) (k : Nat) (s t : M.State) (h : M.step s = .next t) : M.run (k + 1) s =
    M.run k t := by
  simp only [Host.Core.run, h]

theorem hostRun_refused (M : Host.Core) (k : Nat) (s : M.State) (r) (h : M.step s = .refused r) : M.run (k + 1) s =
    .refused r := by
  simp only [Host.Core.run, h]

/-- stepN is the host's run. -/
theorem coreRun_eq (k : Nat) (s : State) : Host.Core.run Sys2Proof.core k s = stepN k s := by
  induction k generalizing s with
  | zero => rfl
  | succ k ih =>
    rw [run_succ]
    cases h : step s with
    | next t => exact (hostRun_next core k s t h).trans (ih t)
    | fault f => exact nomatch f
    | refused r => exact hostRun_refused core k s r h

/-- A run split in two. -/
theorem run_add (j k : Nat) (s t : State) (h : stepN j s = .next t) : stepN (j + k) s = stepN k t := by
  induction j generalizing s with
  | zero => rw [Nat.zero_add]; simp only [stepN, Host.Outcome.next.injEq] at h; rw [h]
  | succ j ih =>
    rw [run_succ] at h
    rw [Nat.succ_add, run_succ]
    split at h <;> simp_all

@[simp] theorem runAll_nil (s : State) : runAll [] s = .next s := by
  show Host.Outcome.next { s with port := s.port ++ [] } = _; rw [List.append_nil]

/-- The first transaction of a sequence. -/
theorem runAll_cons {s s1 : State} {t : Transaction} {ts : List Transaction} (hp : s.port = [])
    (hl : t.payload.length = payloadLength s.cfg.bytes t.cmd)
    (h : runCommand t.cmd { s with payload := t.payload } = .next s1) :
    runAll (t :: ts) s = runAll ts s1 := by
  have hs : step (send (t :: ts) s) = .next { s1 with port := ts.map .transaction } := by
    rw [step_transaction (s := send (t :: ts) s) (t := t) (rest := ts.map .transaction) (by simp [send, hp]) hl]
    have := runCommand_port t.cmd { s with payload := t.payload } (ts.map .transaction)
    rw [h] at this
    exact this
  show stepN (ts.length + 1) _ = _
  rw [run_succ, hs]
  simp only [runAll, send]
  congr 1
  have : s1.port = [] := by
    have h2 := runCommand_port t.cmd { s with payload := t.payload } []
    rw [h, withPort] at h2
    have h3 : ({ s with payload := t.payload, port := [] } : State) = { s with payload := t.payload } := by
      rw [← hp]
    rw [h3, h] at h2
    have h4 := Host.Outcome.next.inj h2
    rw [h4]
  rw [this, List.nil_append]

end Sys2Proof.Machine
end

