-- ==== Sys2Proof/Laws/Assembler.lean ====
section
/-! SUPPORT. Splitting a byte string into pieces (spec/30_encoding.md R91, R92). -/

namespace Sys2Proof.Machine

/-- The pieces make up the byte string, and none is too long. -/
theorem chunks_ok (size : Nat) (hs : 1 ≤ size) (fuel : Nat) (bs : List Byte) (h : bs.length ≤ fuel) :
    (chunksOf size fuel bs).flatten = bs ∧ ∀ p ∈ chunksOf size fuel bs, p.length ≤ size := by
  induction fuel generalizing bs with
  | zero => simp only [chunksOf]; simp; omega
  | succ f ih =>
    simp only [chunksOf]
    split
    · simp; assumption
    · obtain ⟨h1, h2⟩ := ih (bs.drop size) (by simp; omega)
      refine ⟨by simp [h1], fun p hp => ?_⟩
      rcases List.mem_cons.1 hp with rfl | hp
      · simp
      · exact h2 p hp

/-- A short byte string is one piece. -/
theorem chunks_small (size fuel : Nat) (bs : List Byte) (h : bs.length ≤ size) : chunksOf size fuel bs = [bs] := by
  cases fuel <;> simp [chunksOf, h]

end Sys2Proof.Machine
end

