-- ==== Sys2Proof/Laws/PerInstr.lean ====
section
/-! SUPPORT. The family EncodedOpcode, one lemma per constructor of Instr: the encoding of a well-formed instruction has
the opcode of spec/30_encoding.md R73 in its top byte and no reserved bit set (R74). -/

namespace Sys2Proof.Laws.EncodedOpcode

/-- OPC of each command (R73). -/
def opcode : Instr → Nat
  | .hinit _ _ _ => 1
  | .hupd _ => 2
  | .hfin => 3
  | .kinit _ _ => 4
  | .kxor _ => 5
  | .kfin => 6
  | .round => 7

/-- The encoding carries the instruction's opcode and clear reserved bits (R73, R74). -/
def Statement (i : Instr) : Prop :=
  i.wf = true →
    opcodeOf (encode i) = opcode i ∧ reservedField (opcode i) (encode i) = 0

theorem hinit (iv sd : Bool) (len : Nat) : Statement (.hinit iv sd len) := by
  intro h
  refine ⟨opcodeOf_encode _ h, ?_⟩
  have he := encode_toNat _ h
  have hiv := iv.toNat_lt
  have hsd := sd.toNat_lt
  simp only [Instr.wf, decide_eq_true_eq] at h
  simp only [opcode, reservedField, bitField_eq, he]
  omega

theorem hupd (n : Nat) : Statement (.hupd n) := fun h => ⟨opcodeOf_encode _ h, rfl⟩

theorem hfin : Statement .hfin := fun _ => by decide

theorem kinit (klen nlen : Nat) : Statement (.kinit klen nlen) := by
  intro h
  refine ⟨opcodeOf_encode _ h, ?_⟩
  have he := encode_toNat _ h
  simp only [Instr.wf, Bool.and_eq_true, decide_eq_true_eq] at h
  simp only [opcode, reservedField, bitField_eq, he]
  omega

theorem kxor (n : Nat) : Statement (.kxor n) := fun h => ⟨opcodeOf_encode _ h, rfl⟩

theorem kfin : Statement .kfin := fun _ => by decide

theorem round : Statement .round := fun _ => by decide

end Sys2Proof.Laws.EncodedOpcode
end

