-- ==== Sys2Proof/Laws/Work.lean ====
section
/-! SUPPORT. The core rounds of a transaction (spec/70_reset_and_hazards.md R281): none when a check rejects it, the
command's row when it is accepted. -/

namespace Sys2Proof.Machine

/-- A rejected command does no core round. -/
theorem coreRounds_rejected {cmd : BitVec 32} {s : State} (h : check s.cfg cmd s.ctx.st ≠ .ok) :
    coreRounds cmd s = 0 := if_neg h

/-- A word that is no instruction does no core round. -/
theorem coreRounds_undecodable {cmd : BitVec 32} {s : State} {e : DecodeError} (h : decode cmd = .error e) :
    coreRounds cmd s = 0 := by
  simp [coreRounds, h]

/-- An accepted command does the core rounds of its row. -/
theorem coreRounds_accepted {cmd : BitVec 32} {s : State} {i : Instr} (hd : decode cmd = .ok i)
    (hc : check s.cfg cmd s.ctx.st = .ok) : coreRounds cmd s = acceptedRounds i s := by
  simp [coreRounds, hd, hc]

end Sys2Proof.Machine
end

