-- ==== Sys2Proof/Tests/Slice0.lean ====
section
/-! SUPPORT. Tests and witnesses. Expected values come from spec/95_test_vectors.md, or are written out from
spec/30_encoding.md; a witness shows that the hypotheses of a statement can be met together. -/

namespace Sys2Proof.Tests

open Sys2Proof.Machine

/-! ### Small machines -/

/-- W = 8, P = 1, NMAX = 2. -/
def tiny : Config := { width := .w8, p := 1, nmax := 2 }

/-- W = 16, P = 2, NMAX = 3. -/
def pair : Config := { width := .w16, p := 2, nmax := 3 }

/-- W = 64, P = 1, NMAX = 16: the least build with a keystream generator. -/
def single : Config := { width := .w64, p := 1, nmax := 16 }

/-- A block in context state `st` with `n` hash words, every other element zero. -/
def blockIn (cfg : Config) (st : CtxState) (n : Nat) : State :=
  { State.resetOf cfg with ctx := { Context.zero cfg with st := st, n := n } }

/-- The host has put one transaction at the port. -/
def sent (s : State) (cmd : BitVec 32) (payload : List Byte) : State :=
  { s with port := [.transaction { cmd := cmd, payload := payload }] }

/-- The next state of an outcome; none for a stop. -/
def nextOf : Host.Outcome State Fault Refusal → Option State
  | .next t => some t
  | _ => none

/-- What STATUS reads after one step. -/
def statusAfter (s : State) : Option (BitVec 32) := (nextOf (step s)).map (readRegister · 0)

/-- What one step emits, on a block with nothing pending. -/
def emitted (s : State) : Option (List Byte) := (nextOf (step s)).map State.dout

/-- The block after some transactions. -/
def after (ts : List Transaction) (s : State) : State := (nextOf (runAll ts s)).getD s

/-! ### WellFormed refuses what has no encoding (spec/30_encoding.md R71) -/

theorem test_wf_refuses_hinit_length : (Instr.hinit true true 65536).wf = false := by decide
theorem test_wf_refuses_hupd_count : (Instr.hupd 16777216).wf = false := by decide
theorem test_wf_refuses_kinit_key : (Instr.kinit 256 0).wf = false := by decide
theorem test_wf_refuses_kinit_nonce : (Instr.kinit 0 256).wf = false := by decide
theorem test_wf_refuses_kxor_count : (Instr.kxor 16777216).wf = false := by decide

/-! ### Words written out from R71 and R73 -/

/-- 0x01, IV = 1, SD = 0, six zeros, L = 16. -/
theorem test_decode_hinit : decode 0b00000001_1_0_000000_0000000000010000#32 = .ok (.hinit true false 16) := by decide
/-- 0x01, IV = 0, SD = 1, six zeros, L = 65535. -/
theorem test_decode_hinit_seed :
    decode 0b00000001_0_1_000000_1111111111111111#32 = .ok (.hinit false true 65535) := by decide
/-- 0x02, n = 0x800001. -/
theorem test_decode_hupd : decode 0b00000010_100000000000000000000001#32 = .ok (.hupd 0x800001) := by decide
theorem test_decode_hfin : decode 0b00000011_000000000000000000000000#32 = .ok .hfin := by decide
/-- 0x04, reserved 0, KLEN = 128, NLEN = 96. -/
theorem test_decode_kinit : decode 0b00000100_00000000_10000000_01100000#32 = .ok (.kinit 128 96) := by decide
/-- 0x05, n = 5. -/
theorem test_decode_kxor : decode 0b00000101_000000000000000000000101#32 = .ok (.kxor 5) := by decide
theorem test_decode_kfin : decode 0b00000110_000000000000000000000000#32 = .ok .kfin := by decide
theorem test_decode_round : decode 0b00000111_000000000000000000000000#32 = .ok .round := by decide
/-- R75: an unwritten word is reported, not executed. -/
theorem test_decode_zero_word : decode 0#32 = .error .illegalOpcode := by decide
/-- R74, V-E20: HFIN with its lowest operand bit set. -/
theorem test_decode_reserved : decode 0x03000001#32 = .error .reservedField := by decide

/-- Two words told apart by the masks of their rows: the patterns differ under both masks. -/
theorem test_opcode_rows_disjoint :
    opcodeTable.Pairwise fun a b => a.pattern &&& (a.mask &&& b.mask) ≠ b.pattern &&& (a.mask &&& b.mask) := by
  decide

/-- The table's rows decode through decodeTableWord to instructions with the rows' mnemonics. -/
theorem test_table_rows_decode :
    opcodeTable.all (fun r => (decodeTableWord 32 r.pattern.toNat).map Instr.mnemonic == some r.mnemonic) = true := by
  decide

/-- withFetchWord: the very next step of the machine after reset runs the word. -/
theorem test_fetch_word_runs :
    statusAfter (State.reset.withFetchWord 32 0x01000008) = some 0x00000001 := by decide

/-! ### The core round (V-R2) -/

/-- V-R2, the last row: W = 8, S = 80, C = 7f, H = 01. -/
theorem test_round_w8 :
    coreRound 0x80#8 0x7F#8 0x01#8 = { seed := 0x33, lcg := 0xFF, hash := 0xB3, out := 0xF7 } := by decide
/-- V-R2 at W = 16: S = 1234, C = 5678, H = 9abc. -/
theorem test_round_w16 :
    coreRound 0x1234#16 0x5678#16 0x9ABC#16 = { seed := 0x2B8C, lcg := 0x696C, hash := 0x3978, out := 0x9D7E } := by
  decide

/-! ### The word loader (V-T1, V-T2) -/

/-- V-T2: "abc" at W = 64 is one tail word. -/
theorem test_words_abc : messageWords Config.reference [0x61, 0x62, 0x63] = [0x0000000001636261] := by decide
/-- V-T2: eight bytes 80 are one full word, and the sentinel of the tail word is 2. -/
theorem test_words_high_bit :
    messageWords Config.reference (List.replicate 8 0x80) = [0x8080808080808080, 0x0000000000000002] := by decide

/-! ### Registers -/

/-- The reset registers of the reference build: KSN 16, P 4, W 64; NMAX 64 (R32, R33, R37). -/
theorem test_reset_registers :
    [0, 1, 2, 3].map (readRegister State.reset) = [0, 0x00100440, 0x00000040, 0] := by decide

/-! ### HINIT -/

/-- V-H0 step 1: W = 8, P = 1, L = 1. -/
theorem test_hinit_hand_trace :
    nextOf (step (sent (State.resetOf tiny) 0x01000001 [])) =
      some { State.resetOf tiny with
        ctx := { Context.zero tiny with
          st := .empty, n := 1, lanes := [{ seed := 0xA6, lcg := 0xC2 }], hash := [0x8C, 0] } } := by decide
/-- V-H20, its last step: seed override and init vector together, then "abc", on the reference build. -/
theorem test_hinit_seed_iv :
    emitted (sent
        (after
          [{ cmd := 0x01C00010, payload := [0xEF, 0xCD, 0xAB, 0x89, 0x67, 0x45, 0x23, 0x01] ++
              (List.range 16).map (BitVec.ofNat 8) }, hupdOf [0x61, 0x62, 0x63]] State.reset)
        0x03000000 []) =
      some [0x42, 0xAA, 0x67, 0x93, 0xE6, 0x2F, 0xB9, 0xFD, 0x57, 0x8A, 0x3B, 0x1F, 0x2F, 0x60, 0xE9, 0x57] := by
  decide +kernel

/-! ### HUPD -/

/-- The example of 42_absorption.md R146: "abc" after HINIT 16 absorbs nothing and leaves hb = 616263. -/
theorem test_hupd_below_word :
    (nextOf (step (sent (after [hinitOf 16] State.reset) 0x02000003 [0x61, 0x62, 0x63]))).map
        (fun t => (t.ctx.hb, t.ctx.fbit, t.ctx.cur, readRegister t 0)) =
      some ([0x61, 0x62, 0x63], false, 0, 0x00000002) := by decide +kernel
/-- V-E18: HUPD in IDLE. -/
theorem test_hupd_idle : statusAfter (sent State.reset 0x02000000 []) = some 0x00000030 := by decide

/-! ### HFIN -/

/-- V-H0: the empty message at W = 8, P = 1, N = 1. -/
theorem test_hfin_hand_trace :
    emitted (sent { State.resetOf tiny with
      ctx := { Context.zero tiny with
        st := .empty, n := 1, lanes := [{ seed := 0xA6, lcg := 0xC2 }], hash := [0x8C, 0] } } 0x03000000 []) =
      some [0x22] := by decide
/-- V-H6, its last step: "abc" on the reference build. -/
theorem test_hfin_reference :
    emitted (sent (after [hinitOf 16, hupdOf [0x61, 0x62, 0x63]] State.reset) 0x03000000 []) =
      some [0xD9, 0xE4, 0x0D, 0x9A, 0x3E, 0xA2, 0x0A, 0x8E, 0xBD, 0x48, 0x34, 0x2A, 0xBA, 0xD4, 0x4E, 0x66] := by
  decide +kernel

/-! ### KINIT -/

/-- The example of 45_keystream.md R210: key 00 01 … 0f, no nonce. -/
theorem test_kinit_example :
    (nextOf (step (sent State.reset 0x04001000 ((List.range 16).map (BitVec.ofNat 8))))).map
        (fun t => (readRegister t 0, t.ctx.cur, t.ctx.lane, t.ctx.fc, t.ctx.kb)) =
      some (0x00000003, 3, 3, 0, []) := by decide +kernel
/-- V-E17: KINIT below W = 64. -/
theorem test_kinit_width :
    statusAfter (sent (State.resetOf { width := .w32, p := 4, nmax := 64 }) 0x04001000 (List.replicate 16 0)) =
      some 0x00000070 := by decide

/-! ### KXOR -/

/-- V-K3: "Hello, keystream" under key 00 01 … 0f. -/
theorem test_kxor_example :
    emitted (sent (after [kinitOf ((List.range 16).map (BitVec.ofNat 8)) []] State.reset) 0x05000010
        [0x48, 0x65, 0x6C, 0x6C, 0x6F, 0x2C, 0x20, 0x6B, 0x65, 0x79, 0x73, 0x74, 0x72, 0x65, 0x61, 0x6D]) =
      some [0x4F, 0xEB, 0x38, 0x41, 0x97, 0x7C, 0x9A, 0xBB, 0x58, 0x0F, 0x76, 0x5D, 0x59, 0xDE, 0x38, 0xB6] := by
  decide +kernel
/-- V-E21: KXOR in IDLE. -/
theorem test_kxor_idle : statusAfter (sent State.reset 0x05000000 []) = some 0x00000030 := by decide

/-! ### KFIN -/

/-- R219: KFIN in KEYSTREAM leaves the wiped context and STATUS = 0. -/
theorem test_kfin_wipes :
    (nextOf (step (sent { blockIn single .keystream 16 with
        ctx := { (blockIn single .keystream 16).ctx with kb := [1, 2, 3], cur := 5 } } 0x06000000 []))).map
        (fun t => (decide (t.ctx = Context.zero t.cfg), readRegister t 0)) = some (true, 0) := by decide

/-! ### ROUND -/

/-- V-R3, the second row, on the reference build. -/
theorem test_round_command :
    emitted (sent State.reset 0x07000000
        [0xEF, 0xCD, 0xAB, 0x89, 0x67, 0x45, 0x23, 0x01, 0x10, 0x32, 0x54, 0x76, 0x98, 0xBA, 0xDC, 0xFE,
         0x0F, 0x0F, 0x0F, 0x0F, 0x0F, 0x0F, 0x0F, 0x0F]) =
      some [0x8F, 0x57, 0x24, 0xAB, 0x0F, 0x57, 0xB8, 0x4B, 0xDF, 0x19, 0xC3, 0xCA, 0x1F, 0xB1, 0x6D, 0x44,
        0x40, 0xB0, 0x4A, 0xFF, 0x88, 0xA1, 0x28, 0x0E, 0x58, 0xEF, 0x53, 0x8F, 0xD0, 0x56, 0x03, 0x10] := by
  decide +kernel
/-- V-R3, the third row: a reserved bit set, with the payload R80 announces all the same. -/
theorem test_round_reserved :
    statusAfter (sent State.reset 0x07000001 (List.replicate 24 0)) = some 0x00000020 := by decide

/-! ### Work in core rounds (70_reset_and_hazards.md R281) -/

/-- Rejected commands, by state (HUPD 8 in IDLE), reserved bit, opcode and length: none. -/
theorem test_rounds_rejected :
    [0x02000008#32, 0x03000001#32, 0x08000000#32, 0x01800007#32].map (coreRounds · State.reset) = [0, 0, 0, 0] := by
  decide
/-- Accepted ones on the reference build: HINIT with an IV is 5·P, the least KINIT is 2 + 1 + 16·P, ROUND is 1. -/
theorem test_rounds_accepted :
    [0x01800010#32, 0x01000010#32, 0x04001000#32, 0x07000000#32].map (coreRounds · State.reset) = [20, 0, 67, 1] := by
  decide

/-! ### Witnesses: the hypotheses of each statement can be met together -/

/-- A live context whose other elements are all zero satisfies the invariant. -/
theorem blockIn_inv {cfg : Config} {st : CtxState} {n : Nat} (hc : LegalConfig cfg) (hs : st ≠ .idle)
    (h1 : 1 ≤ n) (hn : n ≤ cfg.nmax) (hk : st = .keystream → cfg.width = .w64 ∧ n = ksN) :
    StateInv (blockIn cfg st n) where
  legal := hc
  ctx :=
    { lanes_length := List.length_replicate
      hash_length := List.length_replicate
      hash_tail := fun x hx => List.eq_of_mem_replicate (List.mem_of_mem_drop hx)
      hb_length := by
        show 0 < cfg.width.bits / 8
        cases cfg.width <;> decide
      kb_length := by
        show 0 < 2 * (cfg.width.bits / 8)
        cases cfg.width <;> decide
      lane_lt := hc.1.1
      idle_zero := fun h => absurd h hs
      live_n := fun _ => ⟨h1, hn⟩
      live_cur := fun _ => h1
      empty_fresh := fun _ => ⟨rfl, rfl, rfl, rfl, rfl⟩
      firewall_zero := fun _ => ⟨rfl, rfl, rfl, rfl⟩
      keystream_shape := fun h => ⟨(hk h).1, (hk h).2, rfl⟩ }

/-- The wiped context of a legal build satisfies the invariant. -/
theorem resetInv (cfg : Config) (hc : LegalConfig cfg) : CtxInv (Context.zero cfg) where
  lanes_length := List.length_replicate
  hash_length := List.length_replicate
  hash_tail := fun x hx => List.eq_of_mem_replicate (List.mem_of_mem_drop hx)
  hb_length := by
    show 0 < cfg.width.bits / 8
    cases cfg.width <;> decide
  kb_length := by
    show 0 < 2 * (cfg.width.bits / 8)
    cases cfg.width <;> decide
  lane_lt := hc.1.1
  idle_zero := fun _ => rfl
  live_n := fun h => absurd rfl h
  live_cur := fun h => absurd rfl h
  empty_fresh := fun _ => ⟨rfl, rfl, rfl, rfl, rfl⟩
  firewall_zero := fun _ => ⟨rfl, rfl, rfl, rfl⟩
  keystream_shape := fun h => by simp [Context.zero] at h

/-- A block with one lane that is absorbing a message satisfies the invariant. -/
theorem filling_inv : StateInv (blockIn tiny .filling 2) :=
  blockIn_inv (by decide) (by decide) (by decide) (by decide) (by decide)

/-- A fresh hash context satisfies the invariant. -/
theorem empty_inv : StateInv (blockIn tiny .empty 1) :=
  blockIn_inv (by decide) (by decide) (by decide) (by decide) (by decide)

/-- A block in KEYSTREAM satisfies the invariant. -/
theorem keystream_inv : StateInv (blockIn single .keystream 16) :=
  blockIn_inv (by decide) (by decide) (by decide) (by decide) (by decide)

/-- Every field at the greatest value its bits hold. -/
theorem witness_DecodeEncodeRoundTrip :
    (Instr.hinit true true 65535).wf = true ∧ (Instr.hupd 16777215).wf = true ∧ Instr.hfin.wf = true ∧
    (Instr.kinit 255 255).wf = true ∧ (Instr.kxor 16777215).wf = true ∧ Instr.kfin.wf = true ∧
    Instr.round.wf = true := by decide

theorem witness_EncodedPayloadLength :
    (Instr.hinit false false 0).wf = true ∧ (Instr.hinit true true 65535).wf = true ∧
    (Instr.kinit 255 255).wf = true ∧ (Instr.kxor 16777215).wf = true ∧ Instr.round.wf = true := by decide

theorem witness_EncodeDecodeRoundTrip :
    decode 0x01C0FFFF#32 = .ok (.hinit true true 65535) ∧ decode 0x0400FFFF#32 = .ok (.kinit 255 255) := by decide

theorem witness_DecodeMatchesOpcodeTable :
    decode 0x05FFFFFF#32 = .ok (.kxor 16777215) ∧
    ∃ row ∈ opcodeTable, 0x01C0FFFF#32 &&& row.mask = row.pattern := by decide

theorem witness_IllegalOpcodeRejected :
    (opcodeOf 0x00FFFFFF#32 = 0 ∧ 8 ≤ opcodeOf 0x08000000#32 ∧ 8 ≤ opcodeOf 0xFF000000#32) ∧
    (sent State.reset 0x08000000 []).port = .transaction { cmd := 0x08000000, payload := [] } :: [] := by decide

/-- The lowest and the highest reserved bit of HINIT, KINIT and the commands of format Z, with no payload announced. -/
theorem witness_ReservedBitsRejected :
    [0x01010008#32, 0x01200008#32, 0x04010000#32, 0x04800000#32, 0x03000001#32, 0x06800000#32].all (fun cmd =>
      decide (payloadLength State.reset.cfg.bytes cmd = 0 ∧
        ((opcodeOf cmd = 1 ∧ bitField cmd 21 16 ≠ 0) ∨ (opcodeOf cmd = 4 ∧ bitField cmd 23 16 ≠ 0) ∨
          ((opcodeOf cmd = 3 ∨ opcodeOf cmd = 6 ∨ opcodeOf cmd = 7) ∧ bitField cmd 23 0 ≠ 0)))) = true := by decide

theorem witness_ReservedBitsRejected_round :
    (List.replicate 24 (0 : Byte)).length = payloadLength State.reset.cfg.bytes 0x07000001#32 ∧
    opcodeOf 0x07000001#32 = 7 ∧ bitField 0x07000001#32 23 0 ≠ 0 ∧
    opcodeOf 0x02FFFFFF#32 = 2 ∧ opcodeOf 0x05FFFFFF#32 = 5 := by decide

theorem witness_StepRunsDecodedInstruction :
    (sent State.reset 0x02000001 [0x61]).port = .transaction { cmd := 0x02000001, payload := [0x61] } :: [] ∧
    [(0x61 : Byte)].length = payloadLength State.reset.cfg.bytes 0x02000001#32 ∧
    decode 0x02000001#32 = .ok (.hupd 1) := by decide

theorem witness_PayloadMismatchRefused :
    (sent State.reset 0x02000001 []).port = .transaction { cmd := 0x02000001, payload := [] } :: [] ∧
    ([] : List Byte).length ≠ payloadLength State.reset.cfg.bytes 0x02000001#32 := by decide

/-- The stop itself, on one payload byte too many (R83). -/
theorem test_mismatch_refused : step (sent State.reset 0x03000000 [0]) = .refused .payloadLength := rfl

theorem witness_StepFollowsCheck :
    payloadLength State.reset.cfg.bytes 0x01000008#32 = 0 ∧
    check State.reset.cfg 0x01000008#32 State.reset.ctx.st = .ok ∧
    payloadLength State.reset.cfg.bytes 0x01000000#32 = 0 ∧
    check State.reset.cfg 0x01000000#32 State.reset.ctx.st ≠ .ok := by decide

theorem witness_HostSideStepsKeepTheBlock :
    State.reset.port = [] ∧
    ({ State.reset with dout := [1, 2, 3], port := [.take 2] } : State).port = .take 2 :: [] := by decide

theorem witness_ResetAbandonsAndZeroes :
    ({ blockIn tiny .filling 2 with port := [.reset (some hfinOf)] } : State).port = .reset (some hfinOf) :: [] := by
  decide

/-- The least and the greatest P and NMAX at W = 8 and W = 64, and the reference build. -/
theorem witness_ResetSatisfiesInvariant :
    LegalConfig { width := .w8, p := 1, nmax := 1 } ∧ LegalConfig { width := .w8, p := 255, nmax := 65535 } ∧
    LegalConfig { width := .w64, p := 255, nmax := 8191 } ∧ LegalConfig { width := .w64, p := 1, nmax := 16 } ∧
    LegalConfig Config.reference := by decide

theorem witness_ParamRegisterLayout :
    LegalConfig (State.resetOf { width := .w8, p := 255, nmax := 65535 }).cfg ∧ LegalConfig State.reset.cfg := by
  decide

/-- The premises of StepKeepsInvariant for HUPD in FILLING: the state satisfies the invariant and has a next state. -/
theorem witness_StepKeepsInvariant :
    StateInv (sent (blockIn tiny .filling 2) 0x02000001 [0x61]) ∧
    ∃ t, step (sent (blockIn tiny .filling 2) 0x02000001 [0x61]) = .next t :=
  ⟨⟨filling_inv.legal, filling_inv.ctx⟩, _, rfl⟩

/-- The premises of StepKeepsInvariant for KFIN in KEYSTREAM. -/
theorem witness_StepKeepsInvariant_keystream :
    StateInv (sent (blockIn single .keystream 16) 0x06000000 []) ∧
    ∃ t, step (sent (blockIn single .keystream 16) 0x06000000 []) = .next t :=
  ⟨⟨keystream_inv.legal, keystream_inv.ctx⟩, _, rfl⟩

theorem witness_StepStopsOnlyOnBadPayload : ∃ r, step (sent State.reset 0x03000000 [0]) = .refused r := ⟨_, rfl⟩

theorem witness_RoundOutIgnoresHash : (0 : Word 8) ≠ 1 := by decide

theorem witness_WordBytesRoundTrip :
    [(1 : Byte)].length = Width.w8.bits / 8 ∧ (List.replicate 8 (255 : Byte)).length = Width.w64.bits / 8 := by decide

/-- No leftover byte, and B - 1 of them. -/
theorem witness_TailWordLayout :
    ([] : List Byte).length < Width.w8.bits / 8 ∧ (List.replicate 7 (255 : Byte)).length < Width.w64.bits / 8 := by
  decide

theorem witness_WordStreamInjective :
    (List.replicate 7 (0 : Byte)).length < Config.reference.bytes ∧
    messageWords Config.reference [0x61] = messageWords Config.reference [0x61] := by decide

theorem witness_FlushAbsorbsWordStream :
    (blockIn tiny .filling 2).ctx.hb = [] ∧ (blockIn tiny .filling 2).ctx.fbit = false := by decide

theorem witness_HupdSplitIndependent :
    (blockIn tiny .filling 2).port = [] ∧ [[0x61], [], [0x62, (0x63 : Byte)]] ≠ [] ∧
    [[0x61], [], [0x62, (0x63 : Byte)]].flatten.length < 2 ^ 24 := by decide

/-- The least and the greatest output length of the reference build. -/
theorem witness_HinitWithoutIvStarts :
    State.reset.ctx.st = .idle ∧
    ∀ len ∈ [8, 512],
      len ≠ 0 ∧ len % State.reset.cfg.bytes = 0 ∧ len ≤ State.reset.cfg.nmax * State.reset.cfg.bytes := by decide

/-- The same lengths with an init vector: the last slot of the vector, the first slot above it, and the last lane. -/
theorem witness_HinitWithIvStarts :
    State.reset.ctx.st = .idle ∧
    (∀ len ∈ [16, 512],
      len ≠ 0 ∧ len % State.reset.cfg.bytes = 0 ∧ len ≤ State.reset.cfg.nmax * State.reset.cfg.bytes) ∧
    (1 ≤ 1 ∧ 1 < 16 / State.reset.cfg.bytes) ∧ 16 / State.reset.cfg.bytes ≤ 2 ∧
    (1 ≤ 63 ∧ 63 < 512 / State.reset.cfg.bytes) ∧ 3 < State.reset.cfg.p := by decide

/-- Each clause of InitLengthsRejected at its boundaries, on the reference build and on one below W = 64. -/
theorem witness_InitLengthsRejected :
    State.reset.ctx.st = .idle ∧ State.reset.cfg.width = .w64 ∧
    (∀ len ∈ [0, 7, 513, 520],
      len = 0 ∨ len % State.reset.cfg.bytes ≠ 0 ∨ State.reset.cfg.nmax * State.reset.cfg.bytes < len) ∧
    (∀ klen ∈ [0, 15, 17, 136], klen < 16 ∨ 128 < klen ∨ klen % 8 ≠ 0) ∧
    (∀ klen ∈ [16, 128], 16 ≤ klen ∧ klen ≤ 128 ∧ klen % 8 = 0) ∧
    (∀ nlen ∈ [1, 95, 97, 104], 96 < nlen ∨ nlen % 8 ≠ 0) ∧
    (State.resetOf tiny).ctx.st = .idle ∧ (State.resetOf tiny).cfg.width ≠ .w64 := by decide

theorem witness_ZeroIvMatchesShortcut : (State.resetOf tiny).cfg.p = 1 := by decide

theorem witness_HupdAbsorbsPayload :
    ((blockIn tiny .empty 1).ctx.st = .empty ∨ (blockIn tiny .empty 1).ctx.st = .filling) ∧
    ({ blockIn tiny .empty 1 with payload := [0x61, 0x62] } : State).payload.length = 2 := by decide

/-- One word at W = 8 into slot 0 of two, so that slot 1 is one that no word lands in. -/
theorem witness_HupdCounters :
    StateInv { blockIn tiny .filling 2 with payload := [0x61] } ∧
    ({ blockIn tiny .filling 2 with payload := [0x61] } : State).ctx.st = .filling ∧
    ∀ k, k < (0 + 1) / tiny.bytes → 1 ≠ (0 + k) % 2 :=
  ⟨⟨filling_inv.legal, filling_inv.ctx⟩, rfl, by decide⟩

/-- The last lane and the last slot. -/
theorem witness_AbsorbWordFrame :
    let c : Context pair := { (blockIn pair .filling 3).ctx with cur := 2, lane := 1 }
    c.lane < c.lanes.length ∧ c.cur < c.n ∧ c.n ≤ c.hash.length := by decide

theorem witness_HfinEmitsDigestAndWipes :
    (blockIn tiny .empty 1).ctx.st = .empty ∧ (blockIn tiny .filling 2).ctx.st = .filling := by decide

theorem witness_CursorAfterFlush :
    let c := (blockIn tiny .empty 1).ctx
    c.hb = [] ∧ c.cur = 0 ∧ c.lane = 0 ∧ 1 ≤ c.n ∧ 1 ≤ tiny.p := by decide

/-- A context of NMAX slots, and one of fewer, whose clause on the slots above N is about slot 2. -/
theorem witness_BlankRoundsTouchEverySlot :
    (let c := (blockIn pair .filling 3).ctx; c.cur < c.n ∧ c.n ≤ c.hash.length) ∧
    (let c : Context pair := { (blockIn pair .filling 2).ctx with cur := 1 };
      c.cur < c.n ∧ c.n ≤ c.hash.length ∧ c.n ≤ 2) := by decide

/-- Two builds that differ in NMAX, at the greatest output length of the smaller one. -/
theorem witness_DigestIndependentOfHistory :
    let s1 := State.resetOf tiny
    let s2 : State := { State.resetOf { width := .w8, p := 1, nmax := 7 } with dout := [9] }
    (StateInv s1 ∧ StateInv s2) ∧
    s1.ctx.st = .idle ∧ s2.ctx.st = .idle ∧ s1.port = [] ∧ s2.port = [] ∧
    s1.cfg.width = s2.cfg.width ∧ s1.cfg.p = s2.cfg.p ∧
    2 ≠ 0 ∧ 2 < 2 ^ 16 ∧ 2 % s1.cfg.bytes = 0 ∧ 2 ≤ s1.cfg.nmax * s1.cfg.bytes ∧ 2 ≤ s2.cfg.nmax * s2.cfg.bytes ∧
    [(1 : Byte), 2, 3].length = (if true then s1.cfg.bytes else 0) + (if true then 2 else 0) ∧
    [(0x61 : Byte)].length < 2 ^ 24 :=
  ⟨⟨⟨by decide, resetInv tiny (by decide)⟩, ⟨by decide, resetInv _ (by decide)⟩⟩, by decide⟩

/-- The least and the greatest key and nonce. -/
theorem witness_KinitStartsKeystream :
    State.reset.ctx.st = .idle ∧ State.reset.cfg.width = .w64 ∧
    (∀ klen ∈ [16, 128], 16 ≤ klen ∧ klen ≤ 128 ∧ klen % 8 = 0) ∧ (∀ nlen ∈ [0, 96], nlen ≤ 96 ∧ nlen % 8 = 0) ∧
    ({ State.reset with payload := List.replicate 16 1 } : State).payload.length = 16 + 0 ∧
    ({ State.reset with payload := List.replicate 224 1 } : State).payload.length = 128 + 96 := by decide +kernel

theorem witness_KxorEmitsDataXorKeystream :
    let s : State := { blockIn single .keystream 16 with payload := [1, 2, 3] }
    s.ctx.st = .keystream ∧ s.payload.length = 3 := by decide

theorem witness_KeystreamOfContext :
    let s := blockIn single .keystream 16
    s.ctx.st = .keystream ∧ s.ctx.kb = [] ∧ s.port = [] ∧
    ∀ p ∈ [[1], [], [2, (3 : Byte)]], p.length < 2 ^ 24 := by decide

theorem witness_KxorSplitIndependent :
    (blockIn single .keystream 16).port = [] ∧ [[1], [], [2, (3 : Byte)]] ≠ [] ∧
    [[1], [], [2, (3 : Byte)]].flatten.length < 2 ^ 24 := by decide

theorem witness_KxorSelfInverse :
    let key := List.replicate 16 (1 : Byte)
    let nonce := List.replicate 96 (2 : Byte)
    State.reset.port = [] ∧ State.reset.ctx.st = .idle ∧ State.reset.cfg.width = .w64 ∧
    16 ≤ key.length ∧ key.length ≤ 128 ∧ key.length % 8 = 0 ∧ nonce.length ≤ 96 ∧ nonce.length % 8 = 0 ∧
    ∀ p ∈ [[1], [], [2, (3 : Byte)]], p.length < 2 ^ 24 := by decide

theorem witness_KxorCounters :
    StateInv { blockIn single .keystream 16 with payload := List.replicate 17 1 } ∧
    ({ blockIn single .keystream 16 with payload := List.replicate 17 1 } : State).ctx.st = .keystream :=
  ⟨⟨keystream_inv.legal, keystream_inv.ctx⟩, rfl⟩

theorem witness_KfinWipes : (blockIn single .keystream 16).ctx.st = .keystream := by decide

/-- A build below W = 64, in IDLE and in FILLING. -/
theorem witness_KeystreamOnlyAtWidth64 :
    (StateInv (State.resetOf tiny) ∧ StateInv (blockIn tiny .filling 2)) ∧ tiny.width ≠ .w64 ∧
    (State.resetOf tiny).ctx.st = .idle ∧ (blockIn tiny .filling 2).ctx.st ≠ .idle :=
  ⟨⟨⟨by decide, resetInv tiny (by decide)⟩, filling_inv⟩, by decide⟩

theorem witness_OnlyKxorRevealsKeystream :
    let s := blockIn single .keystream 16
    let c : Context s.cfg := { s.ctx with kb := [1, 2, 3], cur := 5 }
    s.ctx.st = .keystream ∧ c.st = .keystream ∧ c.filled = s.ctx.filled ∧ ∀ n, Instr.kfin ≠ .kxor n :=
  ⟨rfl, rfl, rfl, fun _ => by simp⟩

theorem witness_HashIgnoresFirewall :
    StateInv (blockIn tiny .filling 2) ∧
    ((blockIn tiny .filling 2).ctx.st = .empty ∨ (blockIn tiny .filling 2).ctx.st = .filling) :=
  ⟨filling_inv, by decide⟩

theorem witness_RoundCommandComputes :
    let x : Word 64 := 1
    ({ State.reset with payload := bytesLE x ++ bytesLE x ++ bytesLE x } : State).payload =
      bytesLE x ++ bytesLE x ++ bytesLE x := rfl

theorem witness_SingleLaneIsSinglePair : CtxInv (blockIn tiny .filling 2).ctx ∧ tiny.p = 1 := ⟨filling_inv.ctx, rfl⟩

/-- A state in each row of the transition table. -/
theorem witness_ContextTransitions :
    (State.resetOf single).ctx.st = .idle ∧ (blockIn tiny .empty 1).ctx.st = .empty ∧
    (blockIn tiny .filling 2).ctx.st = .filling ∧ (blockIn single .keystream 16).ctx.st = .keystream := by decide

theorem witness_TransactionsComposeInOrder :
    State.reset.port = [] ∧ ∃ t, runAll [hinitOf 8] State.reset = .next t := ⟨rfl, _, rfl⟩

theorem witness_LongPayloadsSplitInOrder : (List.replicate 3 (0 : Byte)).length ≤ 16777215 := by decide

theorem witness_KstreamEmitsKeystream :
    (16777215 : Nat) < 2 ^ 24 ∧ (blockIn single .keystream 16).ctx.st = .keystream ∧
    (blockIn single .keystream 16).port = [] := by decide

end Sys2Proof.Tests
end

section
/-! Proofs about spec/00_scope.md: the rotation by half the word (R14), words and their bytes (R15), and the steps in
which the host sends no command (R3). -/

namespace Sys2Proof.Machine

/-! ### The rotation by half the word (R14) -/

section HalfWord

variable {w : Nat} (even : w = 2 * (w / 2)) (pos : 0 < w)
include even pos

/-- Half the word is a rotation amount in range. -/
theorem half_mod_width : w / 2 % w = w / 2 := Nat.mod_eq_of_lt (by omega)

omit pos in
/-- What a rotation by half the word leaves on the other side is half the word again: why left and right agree. -/
theorem width_sub_half : w - w / 2 = w / 2 := by omega

theorem rot_eq_rotateRight (a : Word w) : rot a = a.rotateRight (w / 2) := by
  rw [BitVec.rotateRight_def, half_mod_width even pos, width_sub_half even, rot]

theorem rot_eq_rotateLeft (a : Word w) : rot a = a.rotateLeft (w / 2) := by
  rw [BitVec.rotateLeft_def, half_mod_width even pos, width_sub_half even, rot, BitVec.or_comm]

/-- Bit i of rot is the bit half a word away. -/
theorem getLsbD_rot (a : Word w) {i : Nat} (hi : i < w) :
    (rot a).getLsbD i = a.getLsbD (if i < w / 2 then w / 2 + i else i - w / 2) := by
  rw [rot_eq_rotateLeft even pos, BitVec.getLsbD_rotateLeft, half_mod_width even pos, width_sub_half even]
  split
  next low => simp [low]
  next high => simp [high, hi]

/-- Moving a bit by half a word twice brings it back. -/
theorem rot_rot (a : Word w) : rot (rot a) = a := by
  apply BitVec.eq_of_getLsbD_eq
  intro i hi
  by_cases low : i < w / 2
  · have high : ¬ w / 2 + i < w / 2 := by omega
    rw [getLsbD_rot even pos _ hi, if_pos low, getLsbD_rot even pos _ (by omega), if_neg high, Nat.add_sub_cancel_left]
  · have lower : i - w / 2 < w / 2 := by omega
    rw [getLsbD_rot even pos _ hi, if_neg low, getLsbD_rot even pos _ (by omega), if_pos lower,
      Nat.add_sub_cancel' (by omega)]

end HalfWord

/-- A word has at least one bit (R6). -/
theorem width_bits_pos (width : Width) : 0 < width.bits := by
  have := width_bytes_pos width
  omega

/-- Settles O23: left and right differ by the whole word less half of it, which at an even width is half the word. -/
theorem halfWordRotation : Obligations.HalfWordRotation := fun width a =>
  have even := width_bits_even width
  have pos := width_bits_pos width
  ⟨rot_eq_rotateLeft even pos a, rot_eq_rotateRight even pos a, rot_rot even pos a⟩

/-! ### Words and their bytes (R15, R52, R53) -/

/-- Settles O24, from the laws of `le` and `bytesLE`: a word's bytes spell the word, and full words are told apart by
the number they spell. -/
theorem wordBytesRoundTrip : Obligations.WordBytesRoundTrip := fun width =>
  ⟨fun v => ⟨bytesLE_length v, le_bytesLE width v, fun _ hi => bytesLE_getElem? v hi⟩, fun _ hl => bytesLE_le hl⟩

/-! ### Steps without a command (R3) -/

/-- With nothing at the port the block holds its state (log 4). -/
theorem step_idle_port {s : State} (hp : s.port = []) : step s = .next s := by
  simp [step, hp]

/-- A step in which the host takes output (log 5). -/
theorem step_take {s : State} {k : Nat} {rest : List HostAction} (hp : s.port = .take k :: rest) :
    step s = .next (takeOutput k rest s) := by
  simp [step, hp]

/-- Settles O11: the bytes the host gets are the first k of the data-out stream, and the rest of it stays. -/
theorem hostSideStepsKeepTheBlock : Obligations.HostSideStepsKeepTheBlock := by
  refine ⟨fun _ hp => step_idle_port hp, fun s k rest hp => ?_⟩
  have taken_length : (s.dout.take k).length = min k s.dout.length := List.length_take
  have cut : s.dout = s.dout.take k ++ s.dout.drop k := (List.take_append_drop k s.dout).symm
  exact ⟨s.dout.take k, taken_length, s.dout.drop k, cut, step_take hp⟩

end Sys2Proof.Machine
end

section
/-! Proofs about spec/10_state.md: what every command does to the state (R38), the registers of the read port (R31 to
R33), FILLED (R28), the reset values (R37), and the invariant between transactions (R22 to R29, R34, R35). -/

namespace Sys2Proof.Machine

variable {cfg : Config}

/-! ### What every command does (60_exceptions.md R242, R243)

`exec_eq` says it once for all seven: the code depends on ST, the build and the operands alone; the new context and the
output of an accepted command depend on the context, the payload and the operands alone. -/

/-- The code a command reports in context state `st` (R242). -/
def verdict (cfg : Config) (st : CtxState) : Instr → ErrCode
  | .hinit _ _ len => if st ≠ .idle then .state else if badOutLen cfg len then .outlen else .ok
  | .hupd _ => if st = .empty ∨ st = .filling then .ok else .state
  | .hfin => if st = .empty ∨ st = .filling then .ok else .state
  | .kinit klen nlen =>
    if st ≠ .idle then .state
    else if cfg.width ≠ .w64 then .width
    else if badKeyLen klen then .keylen
    else if badNonceLen nlen then .noncelen
    else .ok
  | .kxor _ => if st = .keystream then .ok else .state
  | .kfin => if st = .keystream then .ok else .state
  | .round => .ok

/-- The new context and the output of a command that is accepted. -/
def effect (payload : List Byte) (c : Context cfg) : Instr → Context cfg × List Byte
  | .hinit iv sd len => (startHash iv sd len payload c, [])
  | .hupd n => (updateHash n payload c, [])
  | .hfin => (wipe c, (squeeze (flush c)).2)
  | .kinit klen nlen => (startKeystream klen nlen payload c, [])
  | .kxor n => xorBytes (payload.take n) c
  | .kfin => (wipe c, [])
  | .round => (c, roundOutput cfg payload)

/-- Every command is its verdict and its effect. -/
theorem exec_eq (i : Instr) (s : State) : exec i s = .next
    (if verdict s.cfg s.ctx.st i = .ok then accept s (effect s.payload s.ctx i).1 (effect s.payload s.ctx i).2
     else reject (verdict s.cfg s.ctx.st i) s) := by
  cases i with
  | hinit iv sd len => simp only [exec, execHinit, verdict, effect]; split_ifs <;> trivial
  | hupd n => simp only [exec, execHupd, verdict, effect]; split_ifs <;> trivial
  | hfin => simp only [exec, execHfin, verdict, effect]; split_ifs <;> trivial
  | kinit klen nlen => simp only [exec, execKinit, verdict, effect]; split_ifs <;> trivial
  | kxor n => simp only [exec, execKxor, verdict, effect]; split_ifs <;> trivial
  | kfin => simp only [exec, execKfin, verdict, effect]; split_ifs <;> trivial
  | round => rfl

theorem exec_accepted {i : Instr} {s : State} (h : verdict s.cfg s.ctx.st i = .ok) :
    exec i s = .next (accept s (effect s.payload s.ctx i).1 (effect s.payload s.ctx i).2) := by
  rw [exec_eq, if_pos h]

theorem exec_rejected {i : Instr} {s : State} (h : verdict s.cfg s.ctx.st i ≠ .ok) :
    exec i s = .next (reject (verdict s.cfg s.ctx.st i) s) := by
  rw [exec_eq, if_neg h]

/-- reject in the form of a frame: the context stays and the output appended is empty. -/
theorem reject_eq (e : ErrCode) (s : State) :
    reject e s = { s with ctx := s.ctx, err := e, dout := s.dout ++ [], payload := [] } := by
  rw [List.append_nil]; rfl

/-- Settles O56: a command is rejected or accepted, and both have the frame by definition. -/
theorem execFrame : Obligations.ExecFrame := by
  intro i s
  rcases exec_outcome i s with ⟨e, _, rejected⟩ | ⟨c, out, accepted⟩
  · exact ⟨s.ctx, e, [], rejected.trans (congrArg _ (reject_eq e s)), fun _ => ⟨rfl, rfl⟩⟩
  · exact ⟨c, .ok, out, accepted, fun h => absurd rfl h⟩

/-! ### The registers (R30 to R33) -/

theorem param0Word_toNat (cfg : Config) : (param0Word cfg).toNat =
    (ksnField cfg % 2 ^ 8 * 2 ^ 8 + cfg.p % 2 ^ 8) * 2 ^ 8 + cfg.bits % 2 ^ 8 := by
  simp only [param0Word, append_toNat, BitVec.toNat_ofNat, Nat.zero_mod, Nat.zero_mul, Nat.zero_add]

theorem param1Word_toNat (cfg : Config) : (param1Word cfg).toNat = cfg.nmax % 2 ^ 16 := by
  simp only [param1Word, append_toNat, BitVec.toNat_ofNat, Nat.zero_mod, Nat.zero_mul, Nat.zero_add]

theorem statusWord_toNat (s : State) : (statusWord s).toNat =
    s.err.code.toNat * 2 ^ 4 + s.ctx.filled.toNat * 2 ^ 2 + s.ctx.st.code.toNat := by
  simp only [statusWord, append_toNat, BitVec.toNat_ofNat, BitVec.toNat_ofBool]
  omega

/-- NMAX fits the 16 bits PARAM1 has for it (R10). -/
theorem nmax_lt_of_legal (legal : LegalConfig cfg) : cfg.nmax < 2 ^ 16 := by
  obtain ⟨_, ⟨_, capacity⟩, _⟩ := legal
  have := Nat.le_mul_of_pos_right cfg.nmax (bytes_pos cfg)
  omega

/-- Settles O17: each parameter of a legal build is below the size of its field. -/
theorem paramRegisterLayout : Obligations.ParamRegisterLayout := by
  intro s legal
  have nmax_lt := nmax_lt_of_legal legal
  obtain ⟨⟨_, p_le⟩, _, _⟩ := legal
  have bits_lt : s.cfg.bits < 2 ^ 8 := by show s.cfg.width.bits < 2 ^ 8; cases s.cfg.width <;> decide
  have ksn_lt : ksnField s.cfg < 2 ^ 8 := by rw [ksnField]; split <;> decide
  have ksn_eq : ksnField s.cfg = if s.cfg.width = .w64 then 16 else 0 := rfl
  have read1 : readRegister s 1 = param0Word s.cfg := rfl
  have read2 : readRegister s 2 = param1Word s.cfg := rfl
  rw [read1, read2, ← ksn_eq]
  simp only [bitField_eq, param0Word_toNat, param1Word_toNat]
  refine ⟨?_, ?_, ?_, ?_, ?_, ?_, rfl⟩ <;> omega

/-- Settles O18: the codes of ST and ERR are below the size of their fields, and have the values of the
tables. -/
theorem statusRegisterLayout : Obligations.StatusRegisterLayout := by
  intro s
  have st_lt := s.ctx.st.code.isLt
  have err_lt := s.err.code.isLt
  have filled_lt := s.ctx.filled.toNat_lt
  have read : readRegister s 0 = statusWord s := rfl
  simp only [read, bitField_eq, statusWord_toNat]
  refine ⟨?st, ?filled, ?zero, ?err, ?upper⟩
  case st =>
    calc _ = s.ctx.st.code.toNat := by omega
      _ = _ := by cases s.ctx.st <;> rfl
  case filled =>
    calc _ = s.ctx.filled.toNat := by omega
      _ = _ := by cases s.ctx.filled <;> rfl
  case err =>
    calc _ = s.err.code.toNat := by omega
      _ = _ := by cases s.err <;> rfl
  all_goals omega

/-! ### FILLED (R28)

Each function of the model gives, on contexts that differ in FILLED only, contexts that differ in FILLED only. -/

theorem updateByte_of_filled (x : Byte) (c : Context cfg) (b : Bool) :
    ∃ b', updateByte { c with filled := b } x = { updateByte c x with filled := b' } := by
  simp only [updateByte]
  split
  next completed => exact ⟨_, rfl⟩
  next waiting => exact ⟨_, rfl⟩

theorem updateBytes_of_filled (m : List Byte) (c : Context cfg) (b : Bool) :
    ∃ b', updateBytes { c with filled := b } m = { updateBytes c m with filled := b' } := by
  induction m generalizing c b with
  | nil => exact ⟨b, rfl⟩
  | cons x m ih =>
    obtain ⟨b1, first⟩ := updateByte_of_filled x c b
    obtain ⟨b', rest⟩ := ih (updateByte c x) b1
    exact ⟨b', (congrArg (updateBytes · m) first).trans rest⟩

theorem blankRounds_of_filled (k : Nat) (c : Context cfg) (b : Bool) :
    repeatN blankRound k { c with filled := b } = { repeatN blankRound k c with filled := b } := by
  induction k generalizing c with
  | zero => rfl
  | succ k ih => exact ih (blankRound c)

theorem flush_of_filled (c : Context cfg) (b : Bool) :
    ∃ b', flush { c with filled := b } = { flush c with filled := b' } :=
  ⟨_, blankRounds_of_filled c.n (absorbWord (tailWord cfg.bits c.hb c.fbit) { c with hb := [] })
    (b || decide (c.cur + 1 = c.n))⟩

/-- The squeeze carries FILLED along unread. -/
theorem squeezeWords_of_filled (k : Nat) (c : Context cfg) (b : Bool) :
    squeezeWords k { c with filled := b } =
      ({ (squeezeWords k c).1 with filled := b }, (squeezeWords k c).2) := by
  induction k generalizing c with
  | zero => rfl
  | succ k ih =>
    have swept := ih (sweepSlot c).1
    have unfolded : squeezeWords (k + 1) { c with filled := b } =
        ((squeezeWords k { (sweepSlot c).1 with filled := b }).1,
          bytesLE (sweepSlot c).2 ++ (squeezeWords k { (sweepSlot c).1 with filled := b }).2) := rfl
    rw [unfolded, swept]
    rfl

/-- KXOR's loop carries FILLED along unread. -/
theorem xorBytes_of_filled (data : List Byte) (c : Context cfg) (b : Bool) :
    xorBytes data { c with filled := b } = ({ (xorBytes data c).1 with filled := b }, (xorBytes data c).2) := by
  obtain ⟨st_eq, hb_eq, fbit_eq⟩ : (xorBytes data c).1.st = c.st ∧ (xorBytes data c).1.hb = c.hb ∧
      (xorBytes data c).1.fbit = c.fbit := by
    rw [xorBytes_frame]
    exact ⟨rfl, rfl, rfl⟩
  simp only [st_eq, hb_eq, fbit_eq]
  exact xorBytes_side data c c.st c.hb c.fbit b

/-- What an accepted command emits does not depend on FILLED, nor does the context it leaves but for FILLED. -/
theorem effect_of_filled (payload : List Byte) (c : Context cfg) (b : Bool) (i : Instr) :
    ∃ b', effect payload { c with filled := b } i =
      ({ (effect payload c i).1 with filled := b' }, (effect payload c i).2) := by
  cases i with
  | hinit iv sd len => cases iv <;> exact ⟨false, rfl⟩
  | hupd n =>
    obtain ⟨b', absorbed⟩ := updateBytes_of_filled payload c b
    exact ⟨b', by simp only [effect, updateHash, absorbed]⟩
  | hfin =>
    obtain ⟨b', flushed⟩ := flush_of_filled c b
    exact ⟨false, by simp only [effect, squeeze, flushed, squeezeWords_of_filled]; rfl⟩
  | kinit klen nlen => exact ⟨_, rfl⟩
  | kxor n => exact ⟨b, xorBytes_of_filled (payload.take n) c b⟩
  | kfin => exact ⟨false, rfl⟩
  | round => exact ⟨b, rfl⟩

/-- Settles O53: the verdict does not see FILLED, and the effect only hands it on. -/
theorem filledDecidesNothing : Obligations.FilledDecidesNothing := by
  intro s b i
  by_cases ok : verdict s.cfg s.ctx.st i = .ok
  · obtain ⟨b', same⟩ := effect_of_filled s.payload s.ctx b i
    have other := exec_accepted (s := { s with ctx := { s.ctx with filled := b } }) ok
    rw [same] at other
    exact ⟨_, _, .ok, _, exec_accepted ok, other, rfl⟩
  · have other := exec_rejected (s := { s with ctx := { s.ctx with filled := b } }) ok
    exact ⟨_, _, _, [], (exec_rejected ok).trans (congrArg _ (reject_eq _ _)),
      other.trans (congrArg _ (reject_eq _ _)), rfl⟩

/-! ### The reset values (R37) -/

/-- Settles O13: State.resetOf lists the table of R37, and STATUS is made of zero fields. -/
theorem resetStateValues : Obligations.ResetStateValues := fun cfg =>
  have status : readRegister (State.resetOf cfg) 0 = 0 := by
    show statusWord (State.resetOf cfg) = 0
    apply BitVec.eq_of_toNat_eq
    rw [statusWord_toNat]
    rfl
  ⟨rfl, rfl, rfl, rfl, rfl, rfl, rfl, rfl, rfl, rfl, rfl, rfl, rfl, rfl, rfl, status, rfl, rfl⟩

/-- The wiped context, which reset and the FIN commands leave, satisfies the invariant. -/
theorem ctxInv_zero (legal : LegalConfig cfg) : CtxInv (Context.zero cfg) where
  lanes_length := List.length_replicate
  hash_length := List.length_replicate
  hash_tail := fun _ hx => List.eq_of_mem_replicate (List.mem_of_mem_drop hx)
  hb_length := bytes_pos cfg
  kb_length := Nat.mul_pos Nat.two_pos (bytes_pos cfg)
  lane_lt := legal.1.1
  idle_zero := fun _ => rfl
  live_n := fun live => absurd rfl live
  live_cur := fun live => absurd rfl live
  empty_fresh := fun _ => ⟨rfl, rfl, rfl, rfl, rfl⟩
  firewall_zero := fun _ => ⟨rfl, rfl, rfl, rfl⟩
  keystream_shape := fun keystream => nomatch keystream

theorem stateInv_resetOf (legal : LegalConfig cfg) : StateInv (State.resetOf cfg) := ⟨legal, ctxInv_zero legal⟩

/-- Settles O14: reset leaves the wiped context. -/
theorem resetSatisfiesInvariant : Obligations.ResetSatisfiesInvariant :=
  ⟨fun _ legal => stateInv_resetOf legal, stateInv_resetOf (by decide)⟩

/-! ### What rounds keep (R23 to R26)

The part of the invariant that speaks of the lanes, the HashArray and the two indices of a live context. Every round of
the block, of one lane or of all, writes the slot at the cursor and moves the cursor on. -/

/-- The lanes, the HashArray and the indices of a live context are in range. -/
structure LiveInv (c : Context cfg) : Prop where
  lanes_length : c.lanes.length = cfg.p
  hash_length : c.hash.length = cfg.nmax
  hash_tail : ∀ x ∈ c.hash.drop c.n, x = 0
  n_le : c.n ≤ cfg.nmax
  cur_lt : c.cur < c.n
  lane_lt : c.lane < cfg.p

theorem CtxInv.liveInv {c : Context cfg} (h : CtxInv c) (live : c.st ≠ .idle) : LiveInv c :=
  ⟨h.lanes_length, h.hash_length, h.hash_tail, (h.live_n live).2, h.live_cur live, h.lane_lt⟩

namespace LiveInv

variable {c : Context cfg}

/-- ST, the loader, FILLED, the firewall and kb play no part in it. -/
theorem side (h : LiveInv c) (st hb fbit filled fw fh fc kb) :
    LiveInv { c with st := st, hb := hb, fbit := fbit, filled := filled, fw := fw, fh := fh, fc := fc, kb := kb } :=
  ⟨h.lanes_length, h.hash_length, h.hash_tail, h.n_le, h.cur_lt, h.lane_lt⟩

/-- Writing the slot at the cursor and moving the cursor on keeps the words above N zero and the cursor in range. -/
theorem of_slot_written (h : LiveInv c) {c' : Context cfg} {x : Word cfg.bits} (n_eq : c'.n = c.n)
    (lanes_eq : c'.lanes.length = c.lanes.length) (hash_eq : c'.hash = c.hash.set c.cur x)
    (cur_eq : c'.cur = (c.cur + 1) % c.n) (lane_lt : c'.lane < cfg.p) : LiveInv c' where
  lanes_length := lanes_eq.trans h.lanes_length
  hash_length := by rw [hash_eq, List.length_set, h.hash_length]
  hash_tail := by rw [hash_eq, n_eq, List.drop_set_of_lt h.cur_lt]; exact h.hash_tail
  n_le := n_eq ▸ h.n_le
  cur_lt := by rw [cur_eq, n_eq]; exact Nat.mod_lt _ (Nat.zero_lt_of_lt h.cur_lt)
  lane_lt := lane_lt

theorem laneRound (h : LiveInv c) (m : Word cfg.bits) : LiveInv (laneRound m c).1 :=
  h.of_slot_written rfl List.length_set rfl rfl (Nat.mod_lt _ (Nat.zero_lt_of_lt h.lane_lt))

theorem absorbWord (h : LiveInv c) (m : Word cfg.bits) : LiveInv (absorbWord m c) :=
  (h.laneRound m).side _ _ _ _ _ _ _ _

theorem absorbWords (h : LiveInv c) (ws : List (Word cfg.bits)) : LiveInv (absorbWords ws c) := by
  induction ws generalizing c with
  | nil => exact h
  | cons w ws ih => exact ih (h.absorbWord w)

theorem updateBytes (h : LiveInv c) (hb_lt : c.hb.length < cfg.bytes) (m : List Byte) :
    LiveInv (updateBytes c m) := by
  rw [updateBytes_eq c m hb_lt]
  exact (h.absorbWords _).side _ _ _ _ _ _ _ _

theorem blankRound (h : LiveInv c) : LiveInv (blankRound c) :=
  h.of_slot_written rfl (sweepLanes_length _ _) rfl rfl h.lane_lt

theorem blankRounds (h : LiveInv c) (k : Nat) : LiveInv (repeatN Machine.blankRound k c) := by
  induction k generalizing c with
  | zero => exact h
  | succ k ih => exact ih h.blankRound

theorem flush (h : LiveInv c) : LiveInv (flush c) :=
  ((h.side c.st [] c.fbit c.filled c.fw c.fh c.fc c.kb).absorbWord _).blankRounds _

/-- One half of a keystream block runs one main lane; the firewall's step touches none of this. -/
theorem halfBlock (h : LiveInv c) (f : Fin 2) : LiveInv (halfBlock f c).1 :=
  (h.laneRound 0).side _ _ _ _ _ _ _ _

theorem genBlock (h : LiveInv c) : LiveInv (genBlock c).1 := (h.halfBlock 0).halfBlock 1

theorem refill (h : LiveInv c) : LiveInv (refill c) := by
  rcases refill_cases c with ⟨_, _, _, held⟩ | ⟨_, generated, _⟩
  · rw [held]; exact h
  · rw [generated]; exact h.genBlock.side _ _ _ _ _ _ _ _

theorem xorBytes (h : LiveInv c) (data : List Byte) : LiveInv (xorBytes data c).1 := by
  induction data generalizing c with
  | nil => exact h
  | cons d ds ih => exact ih (h.refill.side _ _ _ _ _ _ _ _)

/-- With the loader, kb and the firewall in range too, a live context satisfies the whole invariant. -/
theorem ctxInv (h : LiveInv c) (live : c.st ≠ .idle) (hb_length : c.hb.length < cfg.bytes)
    (kb_length : c.kb.length < 2 * cfg.bytes)
    (empty_fresh : c.st = .empty → c.cur = 0 ∧ c.lane = 0 ∧ c.hb = [] ∧ c.fbit = false ∧ c.filled = false)
    (firewall_zero : c.st ≠ .keystream →
      c.fw = Vector.replicate 2 { seed := 0, lcg := 0 } ∧ c.fh = Vector.replicate 3 0 ∧ c.fc = 0 ∧ c.kb = [])
    (keystream_shape : c.st = .keystream → cfg.width = .w64 ∧ c.n = ksN ∧ c.hb = []) : CtxInv c where
  lanes_length := h.lanes_length
  hash_length := h.hash_length
  hash_tail := h.hash_tail
  hb_length := hb_length
  kb_length := kb_length
  lane_lt := h.lane_lt
  idle_zero := fun idle => absurd idle live
  live_n := fun _ => ⟨Nat.succ_le_of_lt (Nat.zero_lt_of_lt h.cur_lt), h.n_le⟩
  live_cur := fun _ => h.cur_lt
  empty_fresh := empty_fresh
  firewall_zero := firewall_zero
  keystream_shape := keystream_shape

end LiveInv

/-! ### The two INIT paths (42_absorption.md R143, R144) -/

section Init

variable {c : Context cfg} (p_pos : 1 ≤ cfg.p) (n_pos : 1 ≤ c.n) (n_le : c.n ≤ cfg.nmax)
include p_pos n_pos n_le

theorem liveInv_rewind_initNoIV (seed : Word cfg.bits) : LiveInv (rewind (initNoIV seed c)) where
  lanes_length := List.length_replicate
  hash_length := by simp; omega
  hash_tail := by
    obtain ⟨k, hk⟩ := Nat.exists_eq_succ_of_ne_zero (Nat.ne_of_gt n_pos)
    simp only [rewind_n, initNoIV_n, rewind_hash, initNoIV_hash, hk, List.drop_succ_cons]
    exact fun _ hx => List.eq_of_mem_replicate (List.mem_of_mem_drop hx)
  n_le := n_le
  cur_lt := n_pos
  lane_lt := p_pos

theorem liveInv_rewind_initIV (seed : Word cfg.bits) (iv : List Byte) : LiveInv (rewind (initIV seed iv c)) where
  lanes_length := warmUpLanes_length _ _ _
  hash_length := by simp [initIV]; omega
  hash_tail := by
    have loaded_length : ((List.range c.n).map fun i => wordOperand cfg i iv).length = c.n := by simp
    show ∀ x ∈ (List.set _ 0 _).drop c.n, x = 0
    rw [List.drop_set_of_lt n_pos, List.drop_left' loaded_length]
    exact fun _ hx => List.eq_of_mem_replicate hx
  n_le := n_le
  cur_lt := n_pos
  lane_lt := p_pos

end Init

/-! ### Every command keeps the invariant -/

/-- A length HINIT accepts is between one word and NMAX words (R10, R24). -/
theorem words_of_goodOutLen {len : Nat} (good : badOutLen cfg len = false) :
    1 ≤ len / cfg.bytes ∧ len / cfg.bytes ≤ cfg.nmax := by
  have not_bad := mt badOut.2 (Bool.eq_false_iff.1 good)
  push Not at not_bad
  obtain ⟨len_ne, whole_words, len_le⟩ := not_bad
  have divides : cfg.bytes ∣ len := Nat.dvd_of_mod_eq_zero whole_words
  exact ⟨Nat.div_pos (Nat.le_of_dvd (Nat.pos_of_ne_zero len_ne) divides) (bytes_pos cfg),
    Nat.div_le_of_le_mul (by rwa [Nat.mul_comm])⟩

section Commands

variable {c : Context cfg}

/-- HINIT starts a fresh context of N words; in IDLE the firewall and kb were zero already (R35, R199). -/
theorem ctxInv_startHash (legal : LegalConfig cfg) (inv : CtxInv c) (idle : c.st = .idle) (iv sd : Bool) {len : Nat}
    (good : badOutLen cfg len = false) (payload : List Byte) : CtxInv (startHash iv sd len payload c) := by
  obtain ⟨n_pos, n_le⟩ := words_of_goodOutLen good
  obtain ⟨⟨p_pos, _⟩, _⟩ := legal
  have firewall := inv.firewall_zero (by rw [idle]; decide)
  have kb_length : c.kb.length < 2 * cfg.bytes := inv.kb_length
  cases iv with
  | false =>
    have live := liveInv_rewind_initNoIV (c := { c with n := len / cfg.bytes }) p_pos n_pos n_le
      (seedOperand cfg sd payload)
    exact (live.side .empty _ _ _ _ _ _ _).ctxInv (by simp) (bytes_pos cfg) kb_length
      (fun _ => ⟨rfl, rfl, rfl, rfl, rfl⟩) (fun _ => firewall) (fun h => nomatch h)
  | true =>
    have live := liveInv_rewind_initIV (c := { c with n := len / cfg.bytes }) p_pos n_pos n_le
      (seedOperand cfg sd payload) (ivOperand cfg sd len payload)
    exact (live.side .empty _ _ _ _ _ _ _).ctxInv (by simp) (bytes_pos cfg) kb_length
      (fun _ => ⟨rfl, rfl, rfl, rfl, rfl⟩) (fun _ => firewall) (fun h => nomatch h)

/-- After UpdateBytes less than a word waits in the holding buffer (R27). -/
theorem updateBytes_hb_length (hb_lt : c.hb.length < cfg.bytes) (m : List Byte) :
    (updateBytes c m).hb.length < cfg.bytes := by
  rw [updateBytes_eq c m hb_lt]
  exact leftover_length_lt _

/-- HUPD keeps the hash context; with no message byte it changes nothing, and with one ST is FILLING (R146). -/
theorem ctxInv_updateHash (inv : CtxInv c) (absorbing : c.st = .empty ∨ c.st = .filling) (payload : List Byte) :
    CtxInv (updateHash payload.length payload c) := by
  cases payload with
  | nil => exact inv
  | cons x m =>
    have live : c.st ≠ .idle := by rcases absorbing with h | h <;> simp [h]
    have not_keystream : c.st ≠ .keystream := by rcases absorbing with h | h <;> simp [h]
    obtain ⟨fw_eq, fh_eq, fc_eq, kb_eq⟩ := updateBytes_fw (x :: m) c
    have absorbed : LiveInv (updateBytes c (x :: m)) := (inv.liveInv live).updateBytes inv.hb_length _
    have filling : updateHash (x :: m).length (x :: m) c = { updateBytes c (x :: m) with st := .filling } := by
      simp [updateHash]
    rw [filling]
    refine (absorbed.side .filling _ _ _ _ _ _ _).ctxInv (by simp) (updateBytes_hb_length inv.hb_length _) ?_
      (fun h => nomatch h) (fun _ => ?_) (fun h => nomatch h)
    · simpa only [kb_eq] using inv.kb_length
    · simpa only [fw_eq, fh_eq, fc_eq, kb_eq] using inv.firewall_zero not_keystream

/-- The flush leaves no byte behind (R171). -/
theorem flush_hb (c : Context cfg) : (flush c).hb = [] := by
  rw [flush, blankRounds_frame]
  rfl

/-- KINIT starts a context of KS_N whole words, with no keystream left over (R210 to R213). -/
theorem ctxInv_startKeystream (legal : LegalConfig cfg) (w64 : cfg.width = .w64) (klen nlen : Nat)
    (payload : List Byte) : CtxInv (startKeystream klen nlen payload c) := by
  obtain ⟨⟨p_pos, _⟩, _, ksN_le⟩ := legal
  have fresh := liveInv_rewind_initNoIV (c := { c with n := ksN }) p_pos (show 1 ≤ ksN by decide) (ksN_le w64) 0
  have n_eq : (startKeystream klen nlen payload c).n = ksN := (flush_n _).trans (updateBytes_n _ _)
  have hb_eq : (startKeystream klen nlen payload c).hb = [] := flush_hb _
  have keyed : LiveInv (startKeystream klen nlen payload c) :=
    ((fresh.updateBytes (bytes_pos cfg) _).flush).side _ _ _ _ _ _ _ _
  refine keyed.ctxInv (by simp [startKeystream]) ?_ (Nat.mul_pos Nat.two_pos (bytes_pos cfg))
    (fun h => nomatch h) (fun h => absurd rfl h) (fun _ => ⟨w64, n_eq, hb_eq⟩)
  rw [hb_eq]
  exact bytes_pos cfg

/-- KXOR keeps the keystream context, with less than a block left over (R34, R215). -/
theorem ctxInv_xorBytes (inv : CtxInv c) (keystream : c.st = .keystream) (data : List Byte) :
    CtxInv (xorBytes data c).1 := by
  have live := inv.liveInv (by simp [keystream])
  obtain ⟨_, _, kb_length, _⟩ := xorBytes_counters data c live.cur_lt live.lane_lt inv.kb_length
  obtain ⟨st_eq, n_eq, hb_eq⟩ : (xorBytes data c).1.st = .keystream ∧ (xorBytes data c).1.n = c.n ∧
      (xorBytes data c).1.hb = c.hb := by
    rw [xorBytes_frame]
    exact ⟨keystream, rfl, rfl⟩
  refine (live.xorBytes data).ctxInv ?_ ?_ kb_length ?_ ?_ ?_
  all_goals simp only [st_eq, n_eq, hb_eq]
  · decide
  · exact inv.hb_length
  · exact fun h => nomatch h
  · exact fun h => absurd rfl h
  · exact fun _ => inv.keystream_shape keystream

/-- Every accepted command keeps the invariant; HUPD, on as many bytes as it announces. -/
theorem ctxInv_effect (legal : LegalConfig cfg) (inv : CtxInv c) {i : Instr} (ok : verdict cfg c.st i = .ok)
    {payload : List Byte} (fits : ∀ n, i = .hupd n → payload.length = n) : CtxInv (effect payload c i).1 := by
  cases i with
  | hinit iv sd len =>
    simp only [verdict] at ok
    split_ifs at ok with st good
    exact ctxInv_startHash legal inv (not_not.1 st) iv sd (Bool.eq_false_iff.2 good) payload
  | hupd n =>
    simp only [verdict] at ok
    split_ifs at ok with absorbing
    obtain rfl := fits n rfl
    exact ctxInv_updateHash inv absorbing payload
  | hfin => exact ctxInv_zero legal
  | kinit klen nlen =>
    simp only [verdict] at ok
    split_ifs at ok with _ w64
    exact ctxInv_startKeystream legal (not_not.1 w64) klen nlen payload
  | kxor n =>
    simp only [verdict] at ok
    split_ifs at ok with keystream
    exact ctxInv_xorBytes inv keystream _
  | kfin => exact ctxInv_zero legal
  | round => exact inv

end Commands

/-! ### Every step keeps the invariant -/

/-- A HUPD word announces the bytes it absorbs (30_encoding.md R80). -/
theorem payloadLength_of_hupd {cmd : BitVec 32} {n : Nat} (decoded : decode cmd = .ok (.hupd n)) (bytes : Nat) :
    payloadLength bytes cmd = n := by
  have row : opcodeOf cmd = 2 ∧ bitField cmd 23 0 = n := by
    simpa [eq_comm] using decode_cases decoded
  obtain ⟨opc, rfl⟩ := row
  simp [payloadLength, opc]

/-- A transaction that carries the payload its word announces keeps the invariant: a rejected one leaves the context, an
accepted one its effect. -/
theorem stateInv_runCommand {cmd : BitVec 32} {s t : State} (inv : StateInv s)
    (fits : s.payload.length = payloadLength s.cfg.bytes cmd) (ran : runCommand cmd s = .next t) : StateInv t := by
  unfold runCommand at ran
  split at ran
  next i decoded =>
    by_cases ok : verdict s.cfg s.ctx.st i = .ok
    · rw [exec_accepted ok] at ran
      obtain rfl := Host.Outcome.next.inj ran
      refine ⟨inv.legal, ctxInv_effect inv.legal inv.ctx ok ?_⟩
      rintro n rfl
      exact fits.trans (payloadLength_of_hupd decoded _)
    · rw [exec_rejected ok] at ran
      obtain rfl := Host.Outcome.next.inj ran
      exact ⟨inv.legal, inv.ctx⟩
  next e _ =>
    obtain rfl := Host.Outcome.next.inj ran
    exact ⟨inv.legal, inv.ctx⟩

/-- Settles O15, by the host's action: reset leaves the wiped context, taking output leaves the context alone, and a
transaction runs its command. -/
theorem stepKeepsInvariant : Obligations.StepKeepsInvariant := by
  intro s t inv stepped
  rcases step_cases stepped with ⟨_, rfl⟩ | ⟨_, _, _, rfl⟩ | ⟨_, _, _, rfl⟩ | ⟨x, rest, _, fits, ran⟩
  · exact inv
  · exact ⟨inv.legal, ctxInv_zero inv.legal⟩
  · exact ⟨inv.legal, inv.ctx⟩
  · have begun : StateInv (beginTransaction x rest s) := ⟨inv.legal, inv.ctx⟩
    exact stateInv_runCommand begun fits ran

end Sys2Proof.Machine
end

section
/-! Proofs about spec/20_memory.md: the order in which transactions take effect (R58). -/

namespace Sys2Proof.Machine

/-! ### One transaction -/

/-- A command word is rejected or executed: there is always a next state (60_exceptions.md R240, R243). -/
theorem runCommand_answers (cmd : BitVec 32) (s : State) : ∃ t, runCommand cmd s = .next t := by
  unfold runCommand
  split
  next i _ => exact ⟨_, exec_eq i s⟩
  next e _ => exact ⟨_, rfl⟩

/-- A command leaves what the host sends after it to the later steps. -/
theorem runCommand_keeps_port {cmd : BitVec 32} {s t : State} (ran : runCommand cmd s = .next t) :
    t.port = s.port := by
  have same_port : runCommand cmd s = withPort s.port (runCommand cmd s) := runCommand_port cmd s s.port
  rw [ran, withPort] at same_port
  have ported : t = { t with port := s.port } := Host.Outcome.next.inj same_port
  rw [ported]

/-- A transaction without the payload its word announces has no step (30_encoding.md R83). -/
theorem step_misfit {s : State} {x : Transaction} {rest : List HostAction} (hp : s.port = .transaction x :: rest)
    (misfit : x.payload.length ≠ payloadLength s.cfg.bytes x.cmd) : step s = .refused .payloadLength := by
  simp [step, hp, payloadFits, misfit]

/-! ### Sequences of transactions (R58) -/

/-- A sequence that ends in a state begins with a transaction whose payload fits. -/
theorem fits_of_runAll_cons {s t : State} {x : Transaction} {xs : List Transaction} (hp : s.port = [])
    (ran : runAll (x :: xs) s = .next t) : x.payload.length = payloadLength s.cfg.bytes x.cmd := by
  by_contra misfit
  have at_port : (send (x :: xs) s).port = .transaction x :: xs.map .transaction := by simp [send, hp]
  have refused : runAll (x :: xs) s = .refused .payloadLength := by
    rw [runAll, List.length_cons, run_succ, step_misfit at_port misfit]
  rw [refused] at ran
  cases ran

/-- The first transaction of a sequence is complete, and the port empty again, before the others take effect. -/
theorem runAll_cons_complete {s : State} {x : Transaction} (hp : s.port = [])
    (fits : x.payload.length = payloadLength s.cfg.bytes x.cmd) :
    ∃ s1 : State, s1.port = [] ∧ ∀ xs, runAll (x :: xs) s = runAll xs s1 := by
  obtain ⟨s1, ran⟩ := runCommand_answers x.cmd { s with payload := x.payload }
  exact ⟨s1, (runCommand_keeps_port ran).trans hp, fun _ => runAll_cons hp fits ran⟩

/-- Settles O58, by induction on the first sequence: its first transaction is complete before anything sent after it
takes effect. -/
theorem transactionsComposeInOrder : Obligations.TransactionsComposeInOrder := by
  intro s t ts us hp ran
  induction ts generalizing s with
  | nil =>
    rw [runAll_nil] at ran
    obtain rfl := Host.Outcome.next.inj ran
    exact ⟨hp, rfl⟩
  | cons x xs ih =>
    obtain ⟨s1, hp1, first⟩ := runAll_cons_complete hp (fits_of_runAll_cons hp ran)
    obtain ⟨port_empty, composed⟩ := ih s1 hp1 ((first xs).symm.trans ran)
    exact ⟨port_empty, (first (xs ++ us)).trans composed⟩

end Sys2Proof.Machine
end

section
/-! Proofs about spec/30_encoding.md: the fields of a command word (R71, R72), decoding and encoding (R73 to R75, R82),
the payload a word announces (R80, R83) and its layout (R81), and the assembler (R85, R91 to R93). -/

namespace Sys2Proof

open Laws.EncodedOpcode (opcode)

/-! ### The fields of a word (R70, R71) -/

theorem bitField_lt (cmd : BitVec 32) (hi lo : Nat) : bitField cmd hi lo < 2 ^ (hi - lo + 1) :=
  (cmd.extractLsb hi lo).isLt

/-- A word is its opcode above its 24 operand bits. -/
theorem toNat_eq_opcode_operand (cmd : BitVec 32) : cmd.toNat = opcodeOf cmd * 2 ^ 24 + bitField cmd 23 0 := by
  have := cmd.isLt
  simp only [opcodeOf, bitField_eq]
  omega

/-- The operand bits in format H. -/
theorem operand_eq_formatH (cmd : BitVec 32) : bitField cmd 23 0 =
    bitField cmd 23 23 * 2 ^ 23 + bitField cmd 22 22 * 2 ^ 22 + bitField cmd 21 16 * 2 ^ 16 + bitField cmd 15 0 := by
  simp only [bitField_eq]
  omega

/-- The operand bits in format K. -/
theorem operand_eq_formatK (cmd : BitVec 32) : bitField cmd 23 0 =
    bitField cmd 23 16 * 2 ^ 16 + bitField cmd 15 8 * 2 ^ 8 + bitField cmd 7 0 := by
  simp only [bitField_eq]
  omega

/-- A flag is read from its bit without loss. -/
theorem toNat_decide_bit (cmd : BitVec 32) (k : Nat) : (decide (bitField cmd k k = 1)).toNat = bitField cmd k k := by
  have bit_lt : bitField cmd k k < 2 ^ (k - k + 1) := bitField_lt cmd k k
  rw [Nat.sub_self] at bit_lt
  rcases (by omega : bitField cmd k k = 0 ∨ bitField cmd k k = 1) with bit | bit <;> simp [bit]

/-! ### The fields of an encoding (R71, R73) -/

theorem fields_encode_hinit {iv sd : Bool} {len : Nat} (wf : (Instr.hinit iv sd len).wf = true) :
    bitField (encode (.hinit iv sd len)) 23 23 = iv.toNat ∧ bitField (encode (.hinit iv sd len)) 22 22 = sd.toNat ∧
      bitField (encode (.hinit iv sd len)) 15 0 = len := by
  have iv_lt := iv.toNat_lt
  have sd_lt := sd.toNat_lt
  have len_lt : len < 2 ^ 16 := of_decide_eq_true wf
  simp only [bitField_eq, encode_toNat _ wf]
  omega

theorem fields_encode_kinit {klen nlen : Nat} (wf : (Instr.kinit klen nlen).wf = true) :
    bitField (encode (.kinit klen nlen)) 15 8 = klen ∧ bitField (encode (.kinit klen nlen)) 7 0 = nlen := by
  have lens_lt : klen < 2 ^ 8 ∧ nlen < 2 ^ 8 := by simpa [Instr.wf] using wf
  simp only [bitField_eq, encode_toNat _ wf]
  omega

theorem count_encode_hupd {n : Nat} (wf : (Instr.hupd n).wf = true) : bitField (encode (.hupd n)) 23 0 = n := by
  have n_lt : n < 2 ^ 24 := of_decide_eq_true wf
  simp only [bitField_eq, encode_toNat _ wf]
  omega

theorem count_encode_kxor {n : Nat} (wf : (Instr.kxor n).wf = true) : bitField (encode (.kxor n)) 23 0 = n := by
  have n_lt : n < 2 ^ 24 := of_decide_eq_true wf
  simp only [bitField_eq, encode_toNat _ wf]
  omega

/-- Every encoding has its opcode and clear reserved bits. -/
theorem encodedOpcode : ∀ i : Instr, Laws.EncodedOpcode.Statement i
  | .hinit iv sd len => Laws.EncodedOpcode.hinit iv sd len
  | .hupd n => Laws.EncodedOpcode.hupd n
  | .hfin => Laws.EncodedOpcode.hfin
  | .kinit klen nlen => Laws.EncodedOpcode.kinit klen nlen
  | .kxor n => Laws.EncodedOpcode.kxor n
  | .kfin => Laws.EncodedOpcode.kfin
  | .round => Laws.EncodedOpcode.round

/-! ### Decoding an encoding (R72, R73, R82) -/

/-- The opcode of an encoding selects the instruction's row, which reads the fields back. -/
theorem decodeRow_encode (i : Instr) (wf : i.wf = true) : decodeRow (encode i) = some i := by
  simp only [decodeRow, opcodeOf_encode i wf]
  cases i with
  | hinit iv sd len =>
    obtain ⟨iv_bit, sd_bit, len_field⟩ := fields_encode_hinit wf
    simp [iv_bit, sd_bit, len_field]
  | hupd n => simp [count_encode_hupd wf]
  | hfin => rfl
  | kinit klen nlen =>
    obtain ⟨klen_field, nlen_field⟩ := fields_encode_kinit wf
    simp [klen_field, nlen_field]
  | kxor n => simp [count_encode_kxor wf]
  | kfin => rfl
  | round => rfl

/-- Settles O1: the row reads the instruction back, and an encoding sets no reserved bit. -/
theorem decodeEncodeRoundTrip : Obligations.DecodeEncodeRoundTrip := by
  intro i wf
  obtain ⟨opc, reserved_clear⟩ := encodedOpcode i wf
  exact decode_of_row (decodeRow_encode i wf) (by rw [opc, reserved_clear])

/-! ### Encoding what was decoded (R71, R74) -/

/-- Each operand is read from as many bits as its field has. -/
theorem wf_of_decode {cmd : BitVec 32} {i : Instr} (decoded : decode cmd = .ok i) : i.wf = true := by
  rcases decode_cases decoded with ⟨_, _, rfl⟩ | ⟨_, rfl⟩ | ⟨_, _, rfl⟩ | ⟨_, _, rfl⟩ | ⟨_, rfl⟩ | ⟨_, _, rfl⟩ |
    ⟨_, _, rfl⟩
  · exact decide_eq_true (bitField_lt cmd 15 0)
  · exact decide_eq_true (bitField_lt cmd 23 0)
  · rfl
  · exact Bool.and_eq_true_iff.2 ⟨decide_eq_true (bitField_lt cmd 15 8), decide_eq_true (bitField_lt cmd 7 0)⟩
  · exact decide_eq_true (bitField_lt cmd 23 0)
  · rfl
  · rfl

/-- The fields a row reads, with its opcode and its clear reserved bits, are all the bits of the word. -/
theorem encode_of_decode {cmd : BitVec 32} {i : Instr} (decoded : decode cmd = .ok i) : encode i = cmd := by
  apply BitVec.eq_of_toNat_eq
  rw [encode_toNat i (wf_of_decode decoded), toNat_eq_opcode_operand cmd]
  rcases decode_cases decoded with ⟨opc, clear, rfl⟩ | ⟨opc, rfl⟩ | ⟨opc, clear, rfl⟩ | ⟨opc, clear, rfl⟩ | ⟨opc, rfl⟩ |
    ⟨opc, clear, rfl⟩ | ⟨opc, clear, rfl⟩
  · simp only [opc, operand_eq_formatH, clear, toNat_decide_bit]
    omega
  · rw [opc]
  · simp only [opc, clear, Nat.add_zero]
  · simp only [opc, operand_eq_formatK, clear]
    omega
  · rw [opc]
  · simp only [opc, clear, Nat.add_zero]
  · simp only [opc, clear, Nat.add_zero]

/-- Settles O2: the instruction holds every bit of the word, each in its field. -/
theorem encodeDecodeRoundTrip : Obligations.EncodeDecodeRoundTrip := fun _ _ decoded =>
  ⟨wf_of_decode decoded, encode_of_decode decoded⟩

/-- A word that decodes has the opcode of its instruction and clear reserved bits. -/
theorem opcode_of_decode {cmd : BitVec 32} {i : Instr} (decoded : decode cmd = .ok i) :
    opcodeOf cmd = opcode i ∧ reservedField (opcodeOf cmd) cmd = 0 := by
  obtain ⟨opc, clear⟩ := encodedOpcode i (wf_of_decode decoded)
  rw [encode_of_decode decoded] at opc clear
  exact ⟨opc, opc ▸ clear⟩

/-- A word with a legal opcode and clear reserved bits decodes. -/
theorem exists_decode {cmd : BitVec 32} (legal : ¬ (opcodeOf cmd = 0 ∨ 8 ≤ opcodeOf cmd))
    (clear : reservedField (opcodeOf cmd) cmd = 0) : ∃ i, decode cmd = .ok i := by
  have row : decodeRow cmd ≠ none := fun no_row => legal (decodeRow_none.1 no_row)
  obtain ⟨i, row⟩ := Option.ne_none_iff_exists'.1 row
  exact ⟨i, decode_of_row row clear⟩

/-! ### The opcode table (R73) -/

/-- The mask of format N asks for the opcode. -/
theorem maskN_iff (cmd : BitVec 32) (k : Nat) : cmd.toNat &&& 0xFF000000 = k * 2 ^ 24 ↔ opcodeOf cmd = k := by
  have mask : cmd.toNat &&& 0xFF000000 = _ := and_field cmd.toNat 8 24
  rw [mask, opcodeOf, bitField_eq]
  omega

/-- The mask of format Z asks for the opcode and clear operand bits. -/
theorem maskZ_iff (cmd : BitVec 32) (k : Nat) :
    cmd.toNat &&& 0xFFFFFFFF = k * 2 ^ 24 ↔ opcodeOf cmd = k ∧ bitField cmd 23 0 = 0 := by
  have mask : cmd.toNat &&& 0xFFFFFFFF = _ := and_field cmd.toNat 32 0
  have lt := cmd.isLt
  rw [mask, opcodeOf, bitField_eq, bitField_eq]
  omega

/-- The mask of format K asks for the opcode and clear reserved bits. -/
theorem maskK_iff (cmd : BitVec 32) (k : Nat) :
    cmd.toNat &&& 0xFFFF0000 = k * 2 ^ 24 ↔ opcodeOf cmd = k ∧ bitField cmd 23 16 = 0 := by
  have mask : cmd.toNat &&& 0xFFFF0000 = _ := and_field cmd.toNat 16 16
  rw [mask, opcodeOf, bitField_eq, bitField_eq]
  omega

/-- The mask of format H asks for the opcode and clear reserved bits. -/
theorem maskH_iff (cmd : BitVec 32) (k : Nat) :
    cmd.toNat &&& 0xFF3F0000 = k * 2 ^ 24 ↔ opcodeOf cmd = k ∧ bitField cmd 21 16 = 0 := by
  rw [and_two_fields, opcodeOf, bitField_eq, bitField_eq]
  omega

/-- What a row's mask and pattern ask of a word: the row's opcode, and clear reserved bits. -/
theorem row_matches_iff {row : OpcodeRow} (mem : row ∈ opcodeTable) (cmd : BitVec 32) :
    cmd &&& row.mask = row.pattern ↔
      opcodeOf cmd = opcodeOf row.pattern ∧ reservedField (opcodeOf cmd) cmd = 0 := by
  have at_opcode : opcodeOf cmd = opcodeOf row.pattern ∧ reservedField (opcodeOf cmd) cmd = 0 ↔
      opcodeOf cmd = opcodeOf row.pattern ∧ reservedField (opcodeOf row.pattern) cmd = 0 :=
    and_congr_right fun opc => by rw [opc]
  rw [at_opcode, ← BitVec.toNat_inj, BitVec.toNat_and]
  simp only [opcodeTable, List.mem_cons, List.not_mem_nil, or_false] at mem
  rcases mem with rfl | rfl | rfl | rfl | rfl | rfl | rfl
  · exact maskH_iff cmd 1
  · exact (maskN_iff cmd 2).trans (and_iff_left rfl).symm
  · exact maskZ_iff cmd 3
  · exact maskK_iff cmd 4
  · exact (maskN_iff cmd 5).trans (and_iff_left rfl).symm
  · exact maskZ_iff cmd 6
  · exact maskZ_iff cmd 7

/-- Each instruction has a row, under its mnemonic and its opcode. -/
theorem exists_row (i : Instr) :
    ∃ row ∈ opcodeTable, row.mnemonic = i.mnemonic ∧ opcodeOf row.pattern = opcode i := by
  cases i <;> simp only [Instr.mnemonic, opcode] <;> decide

/-- No two rows share an opcode. -/
theorem row_unique : ∀ r ∈ opcodeTable, ∀ r' ∈ opcodeTable, opcodeOf r.pattern = opcodeOf r'.pattern → r = r' := by
  decide

theorem row_opcode_legal :
    ∀ row ∈ opcodeTable, ¬ (opcodeOf row.pattern = 0 ∨ 8 ≤ opcodeOf row.pattern) := by
  decide

/-- Settles O3: a row and the decoder ask the same of a word, and the opcode names the row. -/
theorem decodeMatchesOpcodeTable : Obligations.DecodeMatchesOpcodeTable := by
  intro cmd
  constructor
  · intro i decoded
    obtain ⟨row, mem, name, row_opc⟩ := exists_row i
    obtain ⟨opc, clear⟩ := opcode_of_decode decoded
    exact ⟨row, mem, name, (row_matches_iff mem cmd).2 ⟨opc.trans row_opc.symm, clear⟩⟩
  · intro row mem matched
    obtain ⟨opc, clear⟩ := (row_matches_iff mem cmd).1 matched
    obtain ⟨i, decoded⟩ := exists_decode (opc ▸ row_opcode_legal row mem) clear
    obtain ⟨row', mem', name, row_opc⟩ := exists_row i
    have same_row : row' = row :=
      row_unique row' mem' row mem (row_opc.trans ((opcode_of_decode decoded).1.symm.trans opc))
    exact ⟨i, decoded, same_row ▸ name.symm⟩

/-- Settles O4, by evaluation. -/
theorem writtenWordsDecode : Obligations.WrittenWordsDecode := by
  unfold Obligations.WrittenWordsDecode
  decide

/-! ### The payload length (R80) -/

/-- Settles O7: the opcode selects the column's entry, and the fields are the operands. -/
theorem encodedPayloadLength : Obligations.EncodedPayloadLength := by
  intro bytes i wf
  simp only [payloadLength, opcodeOf_encode i wf]
  cases i with
  | hinit iv sd len =>
    obtain ⟨iv_bit, sd_bit, len_field⟩ := fields_encode_hinit wf
    simp [iv_bit, sd_bit, len_field]
  | hupd n => exact count_encode_hupd wf
  | hfin => rfl
  | kinit klen nlen =>
    obtain ⟨klen_field, nlen_field⟩ := fields_encode_kinit wf
    simp [klen_field, nlen_field]
  | kxor n => exact count_encode_kxor wf
  | kfin => rfl
  | round => rfl

end Sys2Proof

namespace Sys2Proof.Machine

variable {cfg : Config}

/-! ### The step on a transaction (R74, R75, R82, R83) -/

theorem runCommand_of_decode {cmd : BitVec 32} {i : Instr} (decoded : decode cmd = .ok i) (s : State) :
    runCommand cmd s = exec i s := by
  simp [runCommand, decoded]

theorem runCommand_of_error {cmd : BitVec 32} {e : DecodeError} (undecodable : decode cmd = .error e) (s : State) :
    runCommand cmd s = .next (reject (decodeErrCode e) s) := by
  simp [runCommand, undecodable]

/-- The step on a word that is no instruction. -/
theorem step_undecodable {s : State} {t : Transaction} {rest : List HostAction} {e : DecodeError}
    (hp : s.port = .transaction t :: rest) (fits : t.payload.length = payloadLength s.cfg.bytes t.cmd)
    (undecodable : decode t.cmd = .error e) :
    step s = .next { s with err := decodeErrCode e, payload := [], port := rest } := by
  rw [step_transaction hp fits, runCommand_of_error undecodable]
  rfl

/-- Settles O5: an opcode without a row announces no payload, so the empty one fits. -/
theorem illegalOpcodeRejected : Obligations.IllegalOpcodeRejected := by
  intro s cmd rest illegal hp
  have no_payload : payloadLength s.cfg.bytes cmd = 0 := payloadLength_illegal _ illegal
  exact ⟨no_payload, step_undecodable hp no_payload.symm (decode_illegal illegal)⟩

/-- Settles O6: the reserved field of the opcode is not zero, or the opcode has none. -/
theorem reservedBitsRejected : Obligations.ReservedBitsRejected := by
  refine ⟨fun s t rest hp fits raised => ?_, fun cmd => ⟨fun opc => ?_, fun opc => ?_⟩⟩
  · have legal : ¬ (opcodeOf t.cmd = 0 ∨ 8 ≤ opcodeOf t.cmd) := by omega
    have reserved_set : reservedField (opcodeOf t.cmd) t.cmd ≠ 0 := by
      rcases raised with ⟨opc, bits⟩ | ⟨opc, bits⟩ | ⟨opc | opc | opc, bits⟩ <;> rwa [opc]
    exact step_undecodable hp fits (decode_reserved legal reserved_set)
  · exact decode_of_row (by simp [decodeRow, opc]) (by simp [reservedField, opc])
  · exact decode_of_row (by simp [decodeRow, opc]) (by simp [reservedField, opc])

/-- Settles O8, from the step on a transaction whose payload fits. -/
theorem stepRunsDecodedInstruction : Obligations.StepRunsDecodedInstruction := by
  intro s t rest i hp fits decoded
  rw [step_transaction hp fits, runCommand_of_decode decoded]
  rfl

/-- Settles O9, the step on a misfit. -/
theorem payloadMismatchRefused : Obligations.PayloadMismatchRefused := fun _ _ _ hp misfit => step_misfit hp misfit

theorem step_reset {s : State} {x : Option Transaction} {rest : List HostAction} (hp : s.port = .reset x :: rest) :
    step s = .next (applyReset rest s) := by
  simp [step, hp]

/-- Every step answers a next state but one: that on a transaction without the payload its word announces. -/
theorem step_answers_or_misfit (s : State) :
    (∃ t, step s = .next t) ∨
    (step s = .refused .payloadLength ∧ ∃ (x : Transaction) (rest : List HostAction),
      s.port = .transaction x :: rest ∧ x.payload.length ≠ payloadLength s.cfg.bytes x.cmd) := by
  match hp : s.port with
  | [] => exact .inl ⟨_, step_idle_port hp⟩
  | .reset x :: rest => exact .inl ⟨_, step_reset hp⟩
  | .take k :: rest => exact .inl ⟨_, step_take hp⟩
  | .transaction x :: rest =>
    by_cases fits : x.payload.length = payloadLength s.cfg.bytes x.cmd
    · rw [step_transaction hp fits]
      exact .inl (runCommand_answers _ _)
    · exact .inr ⟨step_misfit hp fits, x, rest, rfl, fits⟩

/-- Settles O16: a step that stops is not one of those that answer a next state. -/
theorem stepStopsOnlyOnBadPayload : Obligations.StepStopsOnlyOnBadPayload := by
  intro s
  refine ⟨fun f _ => (nomatch f), fun r stopped => ?_⟩
  rcases step_answers_or_misfit s with ⟨t, answered⟩ | ⟨refused, misfit⟩
  · rw [answered] at stopped
    cases stopped
  · rw [refused] at stopped
    exact ⟨(Host.Outcome.refused.inj stopped).symm, misfit⟩

/-! ### The words of a payload (R81) -/

theorem wordOperand_zero_append (v : Word cfg.bits) (rest : List Byte) :
    wordOperand cfg 0 (bytesLE v ++ rest) = v := by
  have taken : (bytesLE v ++ rest).take cfg.bytes = bytesLE v := List.take_left' (bytesLE_length v)
  rw [wordOperand, Nat.zero_mul, List.drop_zero, taken]
  exact le_bytesLE cfg.width v

theorem wordOperand_succ_append (v : Word cfg.bits) (k : Nat) (rest : List Byte) :
    wordOperand cfg (k + 1) (bytesLE v ++ rest) = wordOperand cfg k rest := by
  have skipped : (bytesLE v ++ rest).drop ((k + 1) * cfg.bytes) = rest.drop (k * cfg.bytes) := by
    rw [Nat.succ_mul, Nat.add_comm, ← List.drop_drop, List.drop_left' (bytesLE_length v)]
  rw [wordOperand, skipped, wordOperand]

/-- Settles O54: the three operands are the words whose bytes the payload holds. -/
theorem roundCommandComputes : Obligations.RoundCommandComputes := by
  intro s x c h words
  have payload_eq : s.payload = bytesLE x ++ (bytesLE c ++ (bytesLE h ++ [])) := by
    rw [words, List.append_nil, List.append_assoc]
  have operands : wordOperand s.cfg 0 s.payload = x ∧ wordOperand s.cfg 1 s.payload = c ∧
      wordOperand s.cfg 2 s.payload = h := by
    simp only [payload_eq, wordOperand_succ_append, wordOperand_zero_append, and_self]
  obtain ⟨seed_word, lcg_word, hash_word⟩ := operands
  have ran : exec .round s = .next (accept s s.ctx (roundOutput s.cfg s.payload)) := exec_accepted rfl
  rw [ran, roundOutput, seed_word, lcg_word, hash_word]
  rfl

/-! ### Byte strings of any length (R85, R91, R92) -/

/-- A partial function that answers on every element of a list. -/
theorem mapM_eq_some_map {α β : Type} {f : α → Option β} {g : α → β} {l : List α} (h : ∀ a ∈ l, f a = some (g a)) :
    l.mapM f = some (l.map g) := by
  induction l with
  | nil => rfl
  | cons a l ih =>
    obtain ⟨head, tail⟩ := List.forall_mem_cons.1 h
    simp [List.mapM_cons, head, ih tail]

/-- A piece of at most the greatest n has an encoding. -/
theorem count_wf {b : List Byte} (short : b.length ≤ maxChunk) :
    (Instr.hupd b.length).wf = true ∧ (Instr.kxor b.length).wf = true :=
  have lt : b.length < 2 ^ 24 := Nat.lt_of_le_pred (by decide) short
  ⟨decide_eq_true lt, decide_eq_true lt⟩

/-- The pieces a byte string is sent in. -/
abbrev piecesOf (bytes : List Byte) : List (List Byte) := chunksOf maxChunk bytes.length bytes

theorem piecesOf_flatten (bytes : List Byte) : (piecesOf bytes).flatten = bytes :=
  (chunks_ok maxChunk (by decide) bytes.length bytes le_rfl).1

theorem piecesOf_short {bytes p : List Byte} (mem : p ∈ piecesOf bytes) : p.length ≤ maxChunk :=
  (chunks_ok maxChunk (by decide) bytes.length bytes le_rfl).2 p mem

theorem sendHupd_eq (bytes : List Byte) : sendHupd bytes = some ((piecesOf bytes).map hupdOf) :=
  mapM_eq_some_map fun _ mem => if_pos (count_wf (piecesOf_short mem)).1

theorem sendKxor_eq (bytes : List Byte) : sendKxor bytes = some ((piecesOf bytes).map kxorOf) :=
  mapM_eq_some_map fun _ mem => if_pos (count_wf (piecesOf_short mem)).2

/-- Settles O59: the pieces make up the string, each has an encoding, and a short string is one piece. -/
theorem longPayloadsSplitInOrder : Obligations.LongPayloadsSplitInOrder := by
  intro bytes
  refine ⟨⟨piecesOf bytes, piecesOf_flatten bytes, fun _ => piecesOf_short, sendHupd_eq bytes, sendKxor_eq bytes⟩,
    fun short => ?_⟩
  have one_piece : piecesOf bytes = [bytes] := chunks_small maxChunk bytes.length bytes short
  rw [sendHupd_eq, sendKxor_eq, one_piece]
  exact ⟨rfl, rfl⟩

/-! ### KSTREAM (R93) -/

/-- What a KXOR transaction does to a keystream context (45_keystream.md R215). -/
theorem runCommand_kxorOf {s : State} {b : List Byte} (live : s.ctx.st = .keystream) (short : b.length ≤ maxChunk) :
    runCommand (kxorOf b).cmd { s with payload := b } =
      .next (accept { s with payload := b } (xorBytes b s.ctx).1 (xorBytes b s.ctx).2) := by
  have decoded : decode (kxorOf b).cmd = .ok (.kxor b.length) := decodeEncodeRoundTrip _ (count_wf short).2
  have accepted : verdict s.cfg s.ctx.st (.kxor b.length) = .ok := if_pos live
  rw [runCommand_of_decode decoded, exec_accepted (s := { s with payload := b }) accepted]
  simp only [effect, List.take_length]

/-- The pieces of a byte string are XORed with the keystream as the string would be: each goes on with the context the
piece before it left. -/
theorem runAll_kxorOf {pieces : List (List Byte)} (short : ∀ p ∈ pieces, p.length ≤ maxChunk) {s : State}
    (live : s.ctx.st = .keystream) (hp : s.port = []) :
    ∃ t, runAll (pieces.map kxorOf) s = .next t ∧ t.dout = s.dout ++ (xorBytes pieces.flatten s.ctx).2 := by
  induction pieces generalizing s with
  | nil => exact ⟨s, runAll_nil s, (List.append_nil _).symm⟩
  | cons p ps ih =>
    obtain ⟨p_short, ps_short⟩ := List.forall_mem_cons.1 short
    have fits : (kxorOf p).payload.length = payloadLength s.cfg.bytes (kxorOf p).cmd :=
      (encodedPayloadLength _ (.kxor p.length) (count_wf p_short).2).symm
    obtain ⟨t, ran, out⟩ := ih ps_short (s := accept { s with payload := p } (xorBytes p s.ctx).1 (xorBytes p s.ctx).2)
      ((xorBytes_st p s.ctx).trans live) hp
    refine ⟨t, (runAll_cons hp fits (runCommand_kxorOf live p_short)).trans ran, ?_⟩
    rw [out, List.flatten_cons, xorBytes_append]
    exact List.append_assoc _ _ _

/-- XOR with zero bytes hands the other bytes on. -/
theorem zipWith_zero_xor (n : Nat) (l : List Byte) : List.zipWith (· ^^^ ·) (List.replicate n 0) l = l.take n := by
  induction n generalizing l with
  | zero => rfl
  | succ n ih =>
    cases l with
    | nil => rfl
    | cons b bs =>
      have head : 0 ^^^ b = b := BitVec.zero_xor
      rw [List.replicate_succ, List.zipWith_cons_cons, ih, List.take_succ_cons, head]

/-- Zero data bytes come out as the leftover bytes and the blocks to come. -/
theorem xorBytes_zeros (n : Nat) (c : Context cfg) :
    (xorBytes (List.replicate n 0) c).2 = (c.kb ++ keystreamBlocks n c).take n := by
  have enough : (List.replicate n (0 : Byte)).length ≤ (c.kb ++ keystreamBlocks n c).length := by
    have : n ≤ 2 * cfg.bytes * n := Nat.le_mul_of_pos_left n (by have := bytes_pos cfg; omega)
    rw [List.length_replicate, List.length_append, keystreamBlocks_length]
    omega
  rw [xorBytes_out _ c n enough, zipWith_zero_xor]

/-- Settles O60: KXOR of zero bytes, whole or in pieces, emits the keystream. -/
theorem kstreamEmitsKeystream : Obligations.KstreamEmitsKeystream := by
  intro s n live hp
  have sent : sendKxor (List.replicate n 0) = some ((piecesOf (List.replicate n 0)).map kxorOf) := sendKxor_eq _
  obtain ⟨t, ran, out⟩ := runAll_kxorOf (fun _ => piecesOf_short (bytes := List.replicate n 0)) live hp
  rw [piecesOf_flatten, xorBytes_zeros] at out
  refine ⟨_, t, sent, sent, fun small => ?_, ran, out⟩
  have short : (List.replicate n (0 : Byte)).length ≤ maxChunk := by
    rw [List.length_replicate]
    exact Nat.le_pred_of_lt small
  obtain ⟨_, one_command⟩ := (longPayloadsSplitInOrder (List.replicate n 0)).2 short
  exact Option.some.inj (sent.symm.trans one_command)

end Sys2Proof.Machine
end

section
/-! Proofs about spec/40_core_round.md: the odd multiplier (R102), what `out` depends on (R103), the zero-state
constants (R107) and the corner cases (R108). -/

namespace Sys2Proof.Machine

variable {w : Nat}

/-! ### The odd multiplier (R102) -/

/-- What the round adds to Lcg is S1. -/
theorem coreRound_lcg_sub (s c h : Word w) : (coreRound s c h).lcg - c = s * (2 * c + 1) := by
  rw [coreRound_lcg, add_sub_cancel_left]

/-- There are finitely many words, so multiplying by an odd number, which loses nothing, also reaches every word. -/
theorem odd_mul_bijective (c : Word w) : Function.Bijective fun s : Word w => s * (2 * c + 1) :=
  have : Finite (Word w) := Finite.of_injective BitVec.toFin fun _ _ => BitVec.eq_of_toFin_eq
  Finite.injective_iff_bijective.1 (odd_mul_injective c)

/-- Only zero has the product zero. -/
theorem odd_mul_eq_zero_iff (s c : Word w) : s * (2 * c + 1) = 0 ↔ s = 0 := by
  have zero_product : (0 : Word w) * (2 * c + 1) = 0 := zero_mul _
  exact ⟨fun h => odd_mul_injective c (h.trans zero_product.symm), fun h => h ▸ zero_product⟩

/-- Settles O19: S1 is S times an odd number, and that product is a bijection that fixes zero. -/
theorem roundMultiplierIsOdd : Obligations.RoundMultiplierIsOdd := by
  intro w c h
  refine ⟨sub_not_eq c, fun s => coreRound_lcg s c h, ?_, fun s => ?_⟩
  · simpa only [coreRound_lcg_sub] using odd_mul_bijective c
  · rw [coreRound_lcg_sub, odd_mul_eq_zero_iff]

/-! ### What depends on H (R103) -/

/-- H is a summand of the new HashWord. -/
theorem coreRound_hash_injective (s c : Word w) : Function.Injective fun h => (coreRound s c h).hash := by
  intro h h' same
  simp only [coreRound_hash] at same
  exact add_right_cancel (add_right_cancel same)

/-- The new Seed is the new HashWord XORed with S1, which H does not enter. -/
theorem coreRound_seed_injective (s c : Word w) : Function.Injective fun h => (coreRound s c h).seed := by
  intro h h' same
  simp only [coreRound_seed] at same
  exact coreRound_hash_injective s c ((BitVec.xor_right_inj _).1 same)

/-- Settles O20: the closed form of `out` has no H in it, and H enters the other two injectively. -/
theorem roundOutIgnoresHash : Obligations.RoundOutIgnoresHash := by
  intro w s c h h'
  have out_eq (x : Word w) := coreRound_out s c x
  exact ⟨out_eq h, (out_eq h).trans (out_eq h').symm,
    fun ne => ⟨(coreRound_hash_injective s c).ne ne, (coreRound_seed_injective s c).ne ne⟩⟩

/-! ### The zero-state constants (R107) -/

/-- Settles O21: the constants are defined as the five rounds, and each row of the table is those rounds computed. -/
theorem zeroStateConstants : Obligations.ZeroStateConstants :=
  ⟨fun _ => rfl, by decide, by decide, by decide, by decide⟩

/-! ### Corner cases (R108) -/

/-- The round in terms of S1. -/
theorem coreRound_of_product {s c s1 : Word w} (product : s * (2 * c + 1) = s1) (h : Word w) :
    coreRound s c h =
      { seed := s1 ^^^ (h + rot s1 + kW w), lcg := c + s1, hash := h + rot s1 + kW w, out := (c + s1) ^^^ rot s1 } := by
  rw [← product, ← sub_not_eq]
  rfl

/-- A round from Seed 0 leaves Lcg and hands it out, at every width. -/
theorem coreRound_zero_seed (c h : Word w) :
    coreRound 0 c h = { seed := h + kW w, lcg := c, hash := h + kW w, out := c } := by
  have product : (0 : Word w) * (2 * c + 1) = 0 := zero_mul _
  rw [coreRound_of_product product, rot_zero, add_zero, add_zero]
  congr 1
  · exact BitVec.zero_xor
  · exact BitVec.xor_zero

/-- Where 2C is 0 the multiplier is 1, and S1 is S. -/
theorem coreRound_lcg_sub_of_double_zero {c : Word w} (double : 2 * c = 0) (s h : Word w) :
    (coreRound s c h).lcg - c = s := by
  rw [coreRound_lcg_sub, double, zero_add, mul_one]

/-- Settles O22, each case by its S1: 0, 0, 1 (the multiplier is -1), S (the multiplier is 1), and all ones. -/
theorem roundCornerCases : Obligations.RoundCornerCases := by
  refine ⟨fun c h => coreRound_zero_seed c h, ?zero, ?ones, fun s h => ?top, ?seedZero⟩
  case zero => exact (coreRound_zero_seed 0 0).trans (by decide)
  case ones => exact (coreRound_of_product (s1 := 1) (by decide) _).trans (by decide)
  case top => exact coreRound_lcg_sub_of_double_zero (by decide) s h
  case seedZero => exact (coreRound_of_product (s1 := BitVec.allOnes 64) (by decide) _).trans (by decide)

end Sys2Proof.Machine
end

section
/-! Proofs about spec/41_word_loader.md: the layout of the tail word (R122), the word stream of a message (R125) and its
injectivity (R127). -/

namespace Sys2Proof.Machine

variable {cfg : Config} {width : Width}

/-! ### The tail word (R122) -/

/-- The bytes of LE of at most B bytes: those bytes, then the missing high bytes as zeros (R15). -/
theorem bytesLE_le_padded {bs : List Byte} (short : bs.length ≤ width.bits / 8) :
    bytesLE (le width.bits bs) = bs ++ List.replicate (width.bits / 8 - bs.length) 0 := by
  have full : (bs ++ List.replicate (width.bits / 8 - bs.length) 0#8).length = width.bits / 8 := by simp [short]
  have same_word : le width.bits (bs ++ List.replicate (width.bits / 8 - bs.length) 0#8) = le width.bits bs := by
    rw [le, le, leNat_append, leNat_replicate_zero, Nat.mul_zero, Nat.add_zero]
  rw [← same_word]
  exact bytesLE_le full

/-- Settles O25: the tail word is LE of the leftover bytes and the sentinel byte, and LE pads with zeros. -/
theorem tailWordLayout : Obligations.TailWordLayout := by
  intro width hb fbit short
  rw [tailWord_eq_le short, bytesLE_le_padded (by simpa using short), List.length_append, List.length_singleton,
    Nat.add_comm hb.length, Nat.sub_add_eq]

/-! ### What the tail word tells (R127) -/

section TailWord

variable {hb hb' : List Byte} {fbit fbit' : Bool}

/-- The low r bytes of a tail word are the leftover bytes. -/
theorem take_bytesLE_tailWord (short : hb.length < width.bits / 8) :
    (bytesLE (tailWord width.bits hb fbit)).take hb.length = hb := by
  rw [tailWordLayout width hb fbit short, List.append_assoc, List.take_left]

/-- The sentinel is the highest set bit: the leftover bytes spell a number below 2^(8r). -/
theorem tailWord_toNat_bounds (short : hb.length < width.bits / 8) :
    2 ^ (8 * hb.length + fbit.toNat) ≤ (tailWord width.bits hb fbit).toNat ∧
      (tailWord width.bits hb fbit).toNat < 2 ^ (8 * hb.length + fbit.toNat + 1) := by
  have marker_eq : (if fbit then 2 else 1) = 2 ^ fbit.toNat := by cases fbit <;> rfl
  have below : leNat hb < 2 ^ (8 * hb.length + fbit.toNat) :=
    (leNat_lt hb).trans_le (Nat.pow_le_pow_right (by decide) (Nat.le_add_right _ _))
  rw [tailWord_toNat short, marker_eq, ← Nat.pow_add, Nat.pow_succ]
  omega

theorem tailWord_toNat_ne_zero (short : hb.length < width.bits / 8) : (tailWord width.bits hb fbit).toNat ≠ 0 :=
  (Nat.lt_of_lt_of_le (Nat.two_pow_pos _) (tailWord_toNat_bounds short).1).ne'

/-- The highest set bit of a tail word stands at 8r + fbit. -/
theorem log2_tailWord (short : hb.length < width.bits / 8) :
    Nat.log2 (tailWord width.bits hb fbit).toNat = 8 * hb.length + fbit.toNat :=
  (Nat.log2_eq_iff (tailWord_toNat_ne_zero short)).2 (tailWord_toNat_bounds short)

/-- A tail word determines its leftover bytes: how many there are from its highest set bit, which they are from its
bytes. -/
theorem leftover_eq_of_tailWord_eq (short : hb.length < width.bits / 8) (short' : hb'.length < width.bits / 8)
    (same : tailWord width.bits hb fbit = tailWord width.bits hb' fbit') : hb = hb' := by
  have same_top : 8 * hb.length + fbit.toNat = 8 * hb'.length + fbit'.toNat := by
    rw [← log2_tailWord short, ← log2_tailWord short', same]
  have same_length : hb.length = hb'.length := by
    have := fbit.toNat_le
    have := fbit'.toNat_le
    omega
  rw [← take_bytesLE_tailWord (fbit := fbit) short, same, same_length, take_bytesLE_tailWord short']

end TailWord

/-! ### The words of a message (R120, R125, R127) -/

/-- A message is the bytes of its full words, in order, and then the leftover bytes. -/
theorem flatMap_fullWords_append_leftover (m : List Byte) :
    (fullWords cfg m).flatMap bytesLE ++ leftover cfg m = m := by
  induction m using List.reverseRecOn with
  | nil =>
    have short : ([] : List Byte).length < cfg.bytes := bytes_pos cfg
    rw [fullWords_of_lt short, leftover_of_lt short]
    rfl
  | append_singleton m b ih =>
    obtain ⟨words_eq, leftover_eq⟩ := fullWords_snoc (cfg := cfg) m b
    rw [words_eq, leftover_eq]
    split
    next completed =>
      have full : (leftover cfg m ++ [b]).length = cfg.bytes := by simpa using completed
      rw [List.flatMap_append, List.flatMap_singleton, bytesLE_le full, List.append_nil, ← List.append_assoc, ih]
    next waiting => rw [List.append_nil, ← List.append_assoc, ih]

/-- Messages of one word sequence are equal: the last words give the same leftover bytes, the words before them the same
full words. -/
theorem messageWords_injective : Function.Injective (messageWords cfg) := by
  intro m m' same
  obtain ⟨same_words, same_tail⟩ := List.append_inj' same rfl
  have same_leftover : leftover cfg m = leftover cfg m' :=
    leftover_eq_of_tailWord_eq (leftover_length_lt m) (leftover_length_lt m') (List.singleton_inj.1 same_tail)
  rw [← flatMap_fullWords_append_leftover (cfg := cfg) m, same_words, same_leftover,
    flatMap_fullWords_append_leftover]

/-- Settles O26, from what the tail word tells and the decomposition of a message into words. -/
theorem wordStreamInjective : Obligations.WordStreamInjective := fun _ =>
  ⟨fun _ _ short => ⟨tailWord_toNat_ne_zero short, log2_tailWord short, take_bytesLE_tailWord short⟩,
    fun m => ⟨(flatMap_fullWords_append_leftover m).symm, List.getLast?_concat, leftover_length_lt m⟩,
    fun _ _ differ => messageWords_injective.ne differ⟩

/-! ### Streaming and the flush (R125, R147, R171) -/

/-- From a fresh loader, UpdateBytes absorbs the full words of the message and keeps its leftover bytes and last bit. -/
theorem updateBytes_of_fresh_loader {c : Context cfg} (no_bytes : c.hb = []) (no_bit : c.fbit = false)
    (m : List Byte) :
    updateBytes c m = { absorbWords (fullWords cfg m) c with hb := leftover cfg m, fbit := lastBit m } := by
  have last : (if m = [] then c.fbit else lastBit m) = lastBit m := by
    split
    next empty => rw [no_bit, empty]; rfl
    next nonempty => rfl
  rw [updateBytes_eq c m (by rw [no_bytes]; exact bytes_pos cfg), no_bytes, List.nil_append, last]

/-- Blank rounds carry the loader along unread. -/
theorem blankRounds_of_loader (k : Nat) (c : Context cfg) (hb : List Byte) (fbit : Bool) :
    repeatN blankRound k { c with hb := hb, fbit := fbit } =
      { repeatN blankRound k c with hb := hb, fbit := fbit } :=
  (blankRounds_side k c c.st hb fbit c.filled c.fw c.fh c.fc c.kb).trans (by rw [blankRounds_frame])

/-- The flush reads the loader for the tail word only, and empties its buffer (R171). -/
theorem flush_of_loader (c : Context cfg) (hb : List Byte) (fbit : Bool) :
    flush { c with hb := hb, fbit := fbit } =
      { repeatN blankRound c.n (absorbWord (tailWord cfg.bits hb fbit) c) with hb := [], fbit := fbit } :=
  blankRounds_of_loader c.n (absorbWord (tailWord cfg.bits hb fbit) c) [] fbit

/-- Settles O27: UpdateBytes absorbs the full words, and the flush absorbs the tail word of what they left over. -/
theorem flushAbsorbsWordStream : Obligations.FlushAbsorbsWordStream := by
  intro cfg c m no_bytes no_bit
  have words_then_tail : absorbWords (messageWords cfg m) c =
      absorbWord (tailWord cfg.bits (leftover cfg m) (lastBit m)) (absorbWords (fullWords cfg m) c) := by
    rw [messageWords, absorbWords_append, absorbWords_singleton]
  have still_no_bytes : (repeatN blankRound c.n (absorbWords (messageWords cfg m) c)).hb = [] := by
    rw [blankRounds_frame]
    exact (absorbWords_hb _ c).trans no_bytes
  calc flush (updateBytes c m)
      = flush { absorbWords (fullWords cfg m) c with hb := leftover cfg m, fbit := lastBit m } := by
        rw [updateBytes_of_fresh_loader no_bytes no_bit]
    _ = { repeatN blankRound c.n (absorbWords (messageWords cfg m) c) with hb := [], fbit := lastBit m } := by
        rw [flush_of_loader, absorbWords_n, words_then_tail]
    _ = { repeatN blankRound c.n (absorbWords (messageWords cfg m) c) with fbit := lastBit m } := by
        rw [← still_no_bytes]

end Sys2Proof.Machine
end

section
/-! Proofs about spec/42_absorption.md: the transitions of the context (R140), HINIT (R141 to R144), AbsorbWord (R145),
and HUPD (R146 to R149). -/

namespace Sys2Proof.Machine

variable {cfg : Config}

/-! ### The transitions of the context (R140) -/

/-- The context state an accepted command leaves. -/
def stateAfter (st : CtxState) : Instr → CtxState
  | .hinit _ _ _ => .empty
  | .hupd n => if 1 ≤ n then .filling else st
  | .hfin => .idle
  | .kinit _ _ => .keystream
  | .kxor _ => st
  | .kfin => .idle
  | .round => st

/-- UpdateBytes and KXOR's loop leave ST alone, so that ST after a command depends on ST and the command alone. -/
theorem effect_st (payload : List Byte) (c : Context cfg) (i : Instr) :
    (effect payload c i).1.st = stateAfter c.st i := by
  cases i with
  | hinit iv sd len => rfl
  | hupd n => simp only [effect, updateHash, stateAfter, updateBytes_st]
  | hfin => rfl
  | kinit klen nlen => rfl
  | kxor n => exact xorBytes_st _ c
  | kfin => rfl
  | round => rfl

/-- IDLE is the state HINIT asks for: what it rejects there it rejects for another reason (R242). -/
theorem verdict_hinit_idle_ne_state (cfg : Config) (iv sd : Bool) (len : Nat) :
    verdict cfg .idle (.hinit iv sd len) ≠ .state := by
  simp only [verdict, ne_eq, not_true_eq_false, if_false]
  split_ifs <;> decide

/-- IDLE is the state KINIT asks for, too. -/
theorem verdict_kinit_idle_ne_state (cfg : Config) (klen nlen : Nat) :
    verdict cfg .idle (.kinit klen nlen) ≠ .state := by
  simp only [verdict, ne_eq, not_true_eq_false, if_false]
  split_ifs <;> decide

/-- Settles O57: the table's E_STATE cells are those with the verdict E_STATE, and its other cells name the state that
the command's effect leaves. -/
theorem contextTransitions : Obligations.ContextTransitions := by
  intro i s after
  have table : after = if verdict s.cfg s.ctx.st i = .state then none else some (stateAfter s.ctx.st i) := by
    simp only [after]
    cases i with
    | hinit iv sd len =>
      cases s.ctx.st with
      | idle => rw [if_neg (verdict_hinit_idle_ne_state s.cfg iv sd len)]; rfl
      | empty | filling | keystream => rfl
    | kinit klen nlen =>
      cases s.ctx.st with
      | idle => rw [if_neg (verdict_kinit_idle_ne_state s.cfg klen nlen)]; rfl
      | empty | filling | keystream => rfl
    | hupd n => cases n <;> cases s.ctx.st <;> rfl
    | hfin | kxor | kfin | round => cases s.ctx.st <;> rfl
  rw [table]
  split_ifs with state
  · refine ⟨fun _ => ?_, fun _ h => (nomatch h)⟩
    rw [exec_rejected (by rw [state]; decide), state]
    rfl
  · refine ⟨fun h => (nomatch h), fun st named => ?_⟩
    obtain rfl := Option.some.inj named
    by_cases ok : verdict s.cfg s.ctx.st i = .ok
    · exact ⟨_, exec_accepted ok, by simp, fun _ => effect_st s.payload s.ctx i, fun failed => absurd rfl failed⟩
    · exact ⟨_, exec_rejected ok, state, fun passed => absurd passed ok, fun _ => rfl⟩

/-! ### The checks of the INIT commands (R141, R242) -/

/-- An accepted command without output changes the context, ERR and the payload. -/
theorem accept_nil (s : State) (c : Context s.cfg) :
    accept s c [] = { s with ctx := c, err := .ok, payload := [] } := by
  rw [accept, List.append_nil]

/-- Of two accepted commands without output only the second one's context is seen. -/
theorem accept_accept (s : State) (c d : Context s.cfg) : accept (accept s c []) d [] = accept s d [] := by
  simp only [accept, List.append_nil]

/-- Settles O31: in IDLE the verdict is the first length or width check that fails. -/
theorem initLengthsRejected : Obligations.InitLengthsRejected := by
  intro s idle
  have rejected {i : Instr} {e : ErrCode} (failed : verdict s.cfg .idle i = e) (ne : e ≠ .ok) :
      exec i s = .next { s with err := e, payload := [] } := by
    rw [← idle] at failed
    rw [exec_rejected (failed ▸ ne), failed]
    rfl
  refine ⟨fun iv sd len bad => ?_,
    fun klen nlen => ⟨fun width => ?_, fun w64 bad => ?_, fun w64 ge le whole_units bad => ?_⟩⟩
  · exact rejected (by simp [verdict, badOut.2 bad]) (by decide)
  · exact rejected (by simp [verdict, width]) (by decide)
  · exact rejected (by simp [verdict, w64, badKey.2 bad]) (by decide)
  · have good : badKeyLen klen = false := Bool.eq_false_iff.2 (mt badKey.1 (by omega))
    exact rejected (by simp [verdict, w64, good, badNonce.2 bad]) (by decide)

/-- HINIT in IDLE with a legal output length starts the hash. -/
theorem exec_hinit_of_legal {s : State} {iv sd : Bool} {len : Nat} (idle : s.ctx.st = .idle)
    (good : badOutLen s.cfg len = false) : exec (.hinit iv sd len) s =
      .next { s with ctx := startHash iv sd len s.payload s.ctx, err := .ok, payload := [] } := by
  have ok : verdict s.cfg s.ctx.st (.hinit iv sd len) = .ok := by simp [verdict, idle, good]
  rw [exec_accepted ok]
  exact congrArg _ (accept_nil s _)

theorem badOutLen_eq_false {len : Nat} (pos : len ≠ 0) (whole_words : len % cfg.bytes = 0)
    (capacity : len ≤ cfg.nmax * cfg.bytes) : badOutLen cfg len = false :=
  Bool.eq_false_iff.2 (mt badOut.1 (by omega))

/-- Settles O29: the start of the hash without an init vector, written out. -/
theorem hinitWithoutIvStarts : Obligations.HinitWithoutIvStarts := fun _ _ _ idle pos whole_words capacity =>
  exec_hinit_of_legal idle (badOutLen_eq_false pos whole_words capacity)

/-! ### The init vector in the HashArray (R144) -/

/-- The HashArray before the warm-up: the N words of the init vector, then zeros. -/
def loadedHash (cfg : Config) (n : Nat) (iv : List Byte) : List (Word cfg.bits) :=
  (List.range n).map (fun i => wordOperand cfg i iv) ++ List.replicate (cfg.nmax - n) 0

theorem initIV_lanes (seed : Word cfg.bits) (iv : List Byte) (c : Context cfg) : (initIV seed iv c).lanes =
    (warmUpLanes seed cfg.p ((loadedHash cfg c.n iv).getD 0 0)).1 := rfl

theorem initIV_hash (seed : Word cfg.bits) (iv : List Byte) (c : Context cfg) : (initIV seed iv c).hash =
    (loadedHash cfg c.n iv).set 0 (warmUpLanes seed cfg.p ((loadedHash cfg c.n iv).getD 0 0)).2 := rfl

section LoadedHash

variable {n i : Nat} (iv : List Byte)

theorem loadedHash_length (n_le : n ≤ cfg.nmax) : (loadedHash cfg n iv).length = cfg.nmax := by
  simp [loadedHash, n_le]

theorem loadedHash_getD_of_lt (i_lt : i < n) : (loadedHash cfg n iv).getD i 0 = wordOperand cfg i iv := by
  rw [loadedHash, List.getD_append _ _ _ _ (by simpa using i_lt)]
  simp [i_lt]

theorem loadedHash_getD_of_ge (n_le : n ≤ i) : (loadedHash cfg n iv).getD i 0 = 0 := by
  rw [loadedHash, List.getD_append_right _ _ _ _ (by simpa using n_le)]
  by_cases in_range : i - n < cfg.nmax - n <;> simp [in_range]

theorem initIV_hash_length (seed : Word cfg.bits) {c : Context cfg} (n_le : c.n ≤ cfg.nmax) :
    (initIV seed iv c).hash.length = cfg.nmax := by
  rw [initIV_hash, List.length_set, loadedHash_length iv n_le]

/-- The warm-up starts from the first word of the init vector. -/
theorem initIV_lanes_of_pos (seed : Word cfg.bits) {c : Context cfg} (n_pos : 1 ≤ c.n) :
    (initIV seed iv c).lanes = (warmUpLanes seed cfg.p (wordOperand cfg 0 iv)).1 := by
  rw [initIV_lanes, loadedHash_getD_of_lt iv n_pos]

/-- The warm-up writes Hash[0] only. -/
theorem hashAt_initIV_of_pos (seed : Word cfg.bits) (c : Context cfg) (i_pos : 1 ≤ i) :
    hashAt (initIV seed iv c) i = (loadedHash cfg c.n iv).getD i 0 := by
  rw [hashAt, initIV_hash, List.getD_eq_getElem?_getD, List.getElem?_set_ne (by omega), ← List.getD_eq_getElem?_getD]

theorem hashAt_initIV_zero (seed : Word cfg.bits) {c : Context cfg} (n_pos : 1 ≤ c.n) (n_le : c.n ≤ cfg.nmax) :
    hashAt (initIV seed iv c) 0 = (warmUpLanes seed cfg.p (wordOperand cfg 0 iv)).2 := by
  have slot_zero : 0 < (loadedHash cfg c.n iv).length := by rw [loadedHash_length iv n_le]; omega
  rw [hashAt, initIV_hash, loadedHash_getD_of_lt iv n_pos]
  simp [slot_zero]

end LoadedHash

/-- Settles O30: slots above 0 keep what was loaded, and the warm-up is a chain of Hash[0] words. -/
theorem hinitWithIvStarts : Obligations.HinitWithIvStarts := by
  intro s sd len idle pos whole_words capacity iv seed
  have good := badOutLen_eq_false pos whole_words capacity
  obtain ⟨n_pos, n_le⟩ := words_of_goodOutLen good
  obtain ⟨h, first, last, link⟩ := warmUp_chain seed s.cfg.p (wordOperand s.cfg 0 iv)
  let c0 : Context s.cfg := { s.ctx with n := len / s.cfg.bytes }
  refine ⟨_, exec_hinit_of_legal idle good, rfl, rfl, rfl, rfl, rfl, rfl, rfl, rfl, rfl, rfl, rfl,
    warmUpLanes_length _ _ _, initIV_hash_length iv seed (c := c0) n_le, fun i i_pos i_lt => ?loaded,
    fun i n_le_i => ?above, h, ?first, ?last, fun j j_lt => ?link⟩
  case loaded => exact (hashAt_initIV_of_pos iv seed c0 i_pos).trans (loadedHash_getD_of_lt iv i_lt)
  case above => exact (hashAt_initIV_of_pos iv seed c0 (n_pos.trans n_le_i)).trans (loadedHash_getD_of_ge iv n_le_i)
  case first => rw [first, wordOperand, Nat.zero_mul, List.drop_zero]
  case last => exact (hashAt_initIV_zero iv seed (c := c0) n_pos n_le).trans last
  case link =>
    obtain ⟨lane_eq, next_eq⟩ := link j j_lt
    refine ⟨?_, next_eq⟩
    show (initIV seed iv c0).lanes.getD j _ = _
    rw [initIV_lanes_of_pos iv seed (c := c0) n_pos, List.getD_eq_getElem?_getD, lane_eq]
    rfl

/-! ### HINIT commands with the same effect (R141, R144) -/

/-- Two commands with one verdict, and one effect where it is to accept them, do the same, each on its own payload. -/
theorem exec_eq_exec {s : State} {i j : Instr} {a b : List Byte}
    (same_verdict : verdict s.cfg s.ctx.st i = verdict s.cfg s.ctx.st j)
    (same_effect : verdict s.cfg s.ctx.st j = .ok → effect a s.ctx i = effect b s.ctx j) :
    exec i { s with payload := a } = exec j { s with payload := b } := by
  by_cases ok : verdict s.cfg s.ctx.st j = .ok
  · rw [exec_accepted (s := { s with payload := a }) (same_verdict.trans ok),
      exec_accepted (s := { s with payload := b }) ok, same_effect ok]
    rfl
  · rw [exec_rejected (s := { s with payload := a }) (same_verdict ▸ ok),
      exec_rejected (s := { s with payload := b }) ok]
    simp only [same_verdict]
    rfl

/-- A zero init vector loads a zero HashArray. -/
theorem loadedHash_zeros {n : Nat} (n_le : n ≤ cfg.nmax) (len : Nat) :
    loadedHash cfg n (List.replicate len 0) = List.replicate cfg.nmax 0 := by
  have zero_word (i : Nat) : wordOperand cfg i (List.replicate len 0) = 0 := by
    rw [wordOperand, List.drop_replicate, List.take_replicate]
    exact le_replicate_zero _ _
  simp only [loadedHash, zero_word, List.map_const', List.length_range, List.replicate_append_replicate,
    Nat.add_sub_cancel' n_le]

/-- One lane warms up from zero exactly as the zero-state constants are made (40_core_round.md R107). -/
theorem initIV_zeros_eq_initNoIV {c : Context cfg} (one_lane : cfg.p = 1) (n_pos : 1 ≤ c.n) (n_le : c.n ≤ cfg.nmax)
    (len : Nat) : initIV 0 (List.replicate len 0) c = initNoIV 0 c := by
  obtain ⟨k, slots⟩ := Nat.exists_eq_add_of_le' (n_pos.trans n_le)
  have first_word : (List.replicate cfg.nmax (0 : Word cfg.bits)).getD 0 0 = 0 := by simp [slots]
  have warmed : warmUpLanes 0 1 (0 : Word cfg.bits) =
      ([{ seed := (zeroState cfg.bits).seed, lcg := (zeroState cfg.bits).lcg }], (zeroState cfg.bits).hash) := rfl
  have lanes_eq : (initIV 0 (List.replicate len 0) c).lanes = (initNoIV 0 c).lanes := by
    rw [initIV_lanes, loadedHash_zeros n_le, first_word, initNoIV_lanes, one_lane, warmed]
    simp
  have hash_eq : (initIV 0 (List.replicate len 0) c).hash = (initNoIV 0 c).hash := by
    rw [initIV_hash, loadedHash_zeros n_le, first_word, initNoIV_hash, one_lane, warmed, slots]
    rfl
  calc initIV 0 (List.replicate len 0) c
      = { c with lanes := (initIV 0 (List.replicate len 0) c).lanes
                 hash := (initIV 0 (List.replicate len 0) c).hash } := rfl
    _ = initNoIV 0 c := by rw [lanes_eq, hash_eq]; rfl

/-- Settles O32: an accepted length gives a context of 1 to NMAX words, on which the two init paths agree. -/
theorem zeroIvMatchesShortcut : Obligations.ZeroIvMatchesShortcut := by
  intro s len one_lane
  refine exec_eq_exec rfl fun ok => ?_
  have good : badOutLen s.cfg len = false := by
    simp only [verdict] at ok
    split_ifs at ok with _ good
    exact Bool.eq_false_iff.2 good
  obtain ⟨n_pos, n_le⟩ := words_of_goodOutLen good
  have vector : ivOperand s.cfg false len (List.replicate len 0) = List.replicate len 0 := by simp [ivOperand]
  have same_path := initIV_zeros_eq_initNoIV (c := { s.ctx with n := len / s.cfg.bytes }) one_lane n_pos n_le len
  simp only [effect, startHash, seedOperand, vector, if_true, Bool.false_eq_true, if_false]
  rw [same_path]

/-- Settles O33: zero bytes spell the seed 0, and the init vector stands after them. -/
theorem zeroSeedMatchesNoSeed : Obligations.ZeroSeedMatchesNoSeed := by
  intro s iv len rest
  refine exec_eq_exec rfl fun _ => ?_
  have zero_seed : seedOperand s.cfg true (List.replicate s.cfg.bytes 0 ++ rest) = seedOperand s.cfg false rest := by
    rw [seedOperand, if_pos rfl, List.take_left' List.length_replicate]
    exact le_replicate_zero _ _
  have vector : ivOperand s.cfg true len (List.replicate s.cfg.bytes 0 ++ rest) =
      ivOperand s.cfg false len rest := by
    rw [ivOperand, if_pos rfl, List.drop_left' List.length_replicate]
    rfl
  simp only [effect, startHash, zero_seed, vector]

/-! ### AbsorbWord (R145) -/

theorem laneAt_absorbWord_ne (m : Word cfg.bits) (c : Context cfg) {j : Nat} (ne : j ≠ c.lane) :
    laneAt (absorbWord m c) j = laneAt c j := by
  simp only [laneAt, absorbWord_lanes, List.getD_eq_getElem?_getD]
  rw [List.getElem?_set_ne (Ne.symm ne)]

theorem laneAt_absorbWord_lane (m : Word cfg.bits) {c : Context cfg} (in_range : c.lane < c.lanes.length) :
    laneAt (absorbWord m c) c.lane =
      { seed := (coreRound (laneAt c c.lane).seed ((laneAt c c.lane).lcg ^^^ m) (hashAt c c.cur)).seed
        lcg := (coreRound (laneAt c c.lane).seed ((laneAt c c.lane).lcg ^^^ m) (hashAt c c.cur)).lcg } := by
  rw [laneAt, absorbWord_lanes, List.getD_eq_getElem?_getD, List.getElem?_set_self in_range]
  rfl

theorem hashAt_absorbWord_cur (m : Word cfg.bits) {c : Context cfg} (in_range : c.cur < c.hash.length) :
    hashAt (absorbWord m c) c.cur =
      (coreRound (laneAt c c.lane).seed ((laneAt c c.lane).lcg ^^^ m) (hashAt c c.cur)).hash := by
  rw [hashAt, absorbWord_hash, List.getD_eq_getElem?_getD, List.getElem?_set_self in_range]
  rfl

/-- Settles O36, from the two writes of AbsorbWord, at the active lane and at the cursor. -/
theorem absorbWordFrame : Obligations.AbsorbWordFrame := by
  intro cfg c m lane_lt cur_lt n_le
  have last_slot : c.cur + 1 = c.n ↔ c.cur = c.n - 1 := by omega
  exact ⟨laneAt_absorbWord_lane m lane_lt, fun _ ne => laneAt_absorbWord_ne m c ne,
    hashAt_absorbWord_cur m (cur_lt.trans_le n_le), fun _ ne => absorbWord_hashAt_ne m c ne,
    by simp only [absorbWord_filled, last_slot], rfl, rfl, rfl, rfl, rfl, rfl, rfl, rfl, rfl, rfl⟩

/-! ### HUPD (R146, R147, R149) -/

/-- HUPD in a hash context. -/
theorem exec_hupd_of_absorbing {s : State} (absorbing : s.ctx.st = .empty ∨ s.ctx.st = .filling) (n : Nat) :
    exec (.hupd n) s = .next { s with ctx := updateHash n s.payload s.ctx, err := .ok, payload := [] } := by
  have ok : verdict s.cfg s.ctx.st (.hupd n) = .ok := if_pos absorbing
  rw [exec_accepted ok]
  exact congrArg _ (accept_nil s _)

/-- HUPD's effect on the context: UpdateBytes, and FILLING when there is a byte. -/
theorem updateHash_eq (n : Nat) (payload : List Byte) (c : Context cfg) : updateHash n payload c =
    { updateBytes c payload with st := if n = 0 then c.st else .filling } := by
  rw [updateHash, updateBytes_st]
  cases n <;> rfl

/-- Settles O34: HUPD in a hash context, with its effect written out. -/
theorem hupdAbsorbsPayload : Obligations.HupdAbsorbsPayload := by
  intro s n absorbing _
  rw [exec_hupd_of_absorbing absorbing, updateHash_eq]

/-- Settles O35: UpdateBytes absorbs as many words as the held bytes and the payload fill, and absorbing words has
closed-form counters. -/
theorem hupdCounters : Obligations.HupdCounters := by
  intro s inv absorbing words
  have live : s.ctx.st ≠ .idle := by rcases absorbing with st | st <;> simp [st]
  have cur_lt := inv.ctx.live_cur live
  have word_count : (fullWords s.cfg (s.ctx.hb ++ s.payload)).length = words := by
    rw [fullWords_length, List.length_append]
  refine ⟨_, exec_hupd_of_absorbing absorbing _, ?_⟩
  rw [updateHash_eq, updateBytes_eq s.ctx s.payload inv.ctx.hb_length, absorbWords_frame]
  refine ⟨rfl, ?cur, ?lane, ?filled, rfl, fun i untouched => ?slots, rfl, rfl, rfl, rfl, rfl⟩
  case cur => exact word_count ▸ absorbWords_cur _ s.ctx cur_lt
  case lane => exact word_count ▸ absorbWords_lane _ s.ctx inv.ctx.lane_lt
  case filled => exact word_count ▸ absorbWords_filled _ s.ctx cur_lt
  case slots => exact absorbWords_hashAt _ s.ctx cur_lt (word_count.symm ▸ untouched)

/-! ### Sequences of HUPD commands (R148) -/

/-- What one HUPD of some message bytes leaves, accepted or rejected. -/
def afterHupd (bytes : List Byte) (s : State) : State :=
  if s.ctx.st = .empty ∨ s.ctx.st = .filling then accept s (updateHash bytes.length bytes s.ctx) []
  else reject .state s

theorem afterHupd_of_absorbing {s : State} (absorbing : s.ctx.st = .empty ∨ s.ctx.st = .filling)
    (bytes : List Byte) : afterHupd bytes s = accept s (updateHash bytes.length bytes s.ctx) [] := if_pos absorbing

theorem afterHupd_of_not_absorbing {s : State} (other : ¬ (s.ctx.st = .empty ∨ s.ctx.st = .filling))
    (bytes : List Byte) : afterHupd bytes s = reject .state s := if_neg other

theorem afterHupd_port (bytes : List Byte) (s : State) : (afterHupd bytes s).port = s.port := by
  rw [afterHupd]
  split <;> rfl

/-- A HUPD transaction is one step to that state. -/
theorem runAll_hupdOf_cons {bytes : List Byte} (short : bytes.length < 2 ^ 24) {s : State} (hp : s.port = [])
    (ts : List Transaction) : runAll (hupdOf bytes :: ts) s = runAll ts (afterHupd bytes s) := by
  have wf : (Instr.hupd bytes.length).wf = true := decide_eq_true short
  have decoded : decode (hupdOf bytes).cmd = .ok (.hupd bytes.length) := decodeEncodeRoundTrip _ wf
  have ran : runCommand (hupdOf bytes).cmd { s with payload := bytes } = .next (afterHupd bytes s) := by
    rw [runCommand_of_decode decoded]
    show (if _ then _ else _) = _
    rw [afterHupd]
    split <;> rfl
  exact runAll_cons hp (encodedPayloadLength _ (.hupd bytes.length) wf).symm ran

/-- UpdateBytes goes on where it stopped, and ST is FILLING once there was a byte. -/
theorem updateHash_append (a b : List Byte) (c : Context cfg) :
    updateHash b.length b (updateHash a.length a c) = updateHash (a ++ b).length (a ++ b) c := by
  simp only [updateHash_eq, updateBytes_side_st, updateBytes_append]
  cases a <;> cases b <;> simp

/-- HUPD leaves a hash context a hash context. -/
theorem updateHash_absorbing {c : Context cfg} (absorbing : c.st = .empty ∨ c.st = .filling) (n : Nat)
    (payload : List Byte) : (updateHash n payload c).st = .empty ∨ (updateHash n payload c).st = .filling := by
  rw [updateHash_eq]
  cases n with
  | zero => exact absorbing
  | succ n => exact .inr rfl

/-- Two HUPD commands are the one of both payloads: both are rejected, or the second goes on where the first stopped. -/
theorem afterHupd_append (a b : List Byte) (s : State) : afterHupd b (afterHupd a s) = afterHupd (a ++ b) s := by
  by_cases absorbing : s.ctx.st = .empty ∨ s.ctx.st = .filling
  · rw [afterHupd_of_absorbing absorbing, afterHupd_of_absorbing absorbing,
      afterHupd_of_absorbing (updateHash_absorbing absorbing _ _)]
    exact (accept_accept s _ _).trans (congrArg (accept s · []) (updateHash_append a b s.ctx))
  · rw [afterHupd_of_not_absorbing absorbing, afterHupd_of_not_absorbing absorbing,
      afterHupd_of_not_absorbing (s := reject .state s) absorbing]
    rfl

/-- One or more HUPD commands leave what the one HUPD of all their bytes leaves. -/
theorem runAll_map_hupdOf (p : List Byte) (ps : List (List Byte)) {s : State} (hp : s.port = [])
    (short : (p :: ps).flatten.length < 2 ^ 24) :
    runAll ((p :: ps).map hupdOf) s = .next (afterHupd (p :: ps).flatten s) := by
  induction ps generalizing p s with
  | nil =>
    rw [List.flatten_singleton] at short ⊢
    exact (runAll_hupdOf_cons short hp []).trans (runAll_nil _)
  | cons q qs ih =>
    obtain ⟨p_short, rest_short⟩ : p.length < 2 ^ 24 ∧ (q :: qs).flatten.length < 2 ^ 24 := by
      rw [List.flatten_cons, List.length_append] at short
      omega
    have first := runAll_hupdOf_cons p_short hp ((q :: qs).map hupdOf)
    have others := ih q ((afterHupd_port p s).trans hp) rest_short
    rw [List.map_cons, first, others, afterHupd_append, ← List.flatten_cons]

/-- Settles O28: both runs end in the state that the one HUPD of all the bytes leaves. -/
theorem hupdSplitIndependent : Obligations.HupdSplitIndependent := by
  intro s pieces hp nonempty short
  obtain ⟨p, ps, rfl⟩ := List.exists_cons_of_ne_nil nonempty
  have whole : runAll [hupdOf (p :: ps).flatten] s = .next (afterHupd (p :: ps).flatten s) :=
    (runAll_hupdOf_cons short hp []).trans (runAll_nil _)
  exact (runAll_map_hupdOf p ps hp short).trans whole.symm

end Sys2Proof.Machine
end

section
/-! Proofs about spec/43_finalization.md: HFIN (R170, R176), sweeps (R172, R174), the blank rounds (R172, R173), the
cursor after Flush (R178), and what the digest depends on (R177). -/

namespace Sys2Proof.Machine

variable {cfg : Config}

/-! ### HFIN (R170, R174, R176) -/

/-- HFIN in a hash context. -/
theorem exec_hfin_of_absorbing {s : State} (absorbing : s.ctx.st = .empty ∨ s.ctx.st = .filling) :
    exec .hfin s = .next (accept s (Context.zero s.cfg) (squeeze (flush s.ctx)).2) := by
  have ok : verdict s.cfg s.ctx.st .hfin = .ok := if_pos absorbing
  rw [exec_accepted ok]
  rfl

/-- The squeeze of a flushed context is N words of B bytes. -/
theorem squeeze_flush_length (c : Context cfg) : (squeeze (flush c)).2.length = c.n * cfg.bytes := by
  rw [squeeze, squeezeWords_length, flush_n]

/-- Settles O37: HFIN in a hash context accepts, with the squeeze as its output. -/
theorem hfinEmitsDigestAndWipes : Obligations.HfinEmitsDigestAndWipes := fun s absorbing =>
  ⟨_, rfl, squeeze_flush_length s.ctx, exec_hfin_of_absorbing absorbing⟩

/-! ### The cursor after Flush (R178) -/

/-- The tail word moves the cursor on by one, and the N blank rounds bring it round. -/
theorem flush_cur {c : Context cfg} (n_pos : 1 ≤ c.n) : (flush c).cur = (c.cur + 1) % c.n := by
  have in_range : (c.cur + 1) % c.n < c.n := Nat.mod_lt _ n_pos
  have round : (flush c).cur = ((c.cur + 1) % c.n + c.n) % c.n := blankRounds_cur c.n _ in_range
  rw [round, Nat.add_mod_right, Nat.mod_mod]

/-- Only the tail word moves the active lane. -/
theorem flush_lane (c : Context cfg) : (flush c).lane = (c.lane + 1) % cfg.p := blankRounds_lane c.n _

/-- From an empty loader, UpdateBytes absorbs the full words of the message. -/
theorem updateBytes_cur_lane {c : Context cfg} (no_bytes : c.hb = []) (cur_lt : c.cur < c.n) (lane_lt : c.lane < cfg.p)
    (m : List Byte) :
    (updateBytes c m).cur = (c.cur + m.length / cfg.bytes) % c.n ∧
      (updateBytes c m).lane = (c.lane + m.length / cfg.bytes) % cfg.p := by
  have hb_lt : c.hb.length < cfg.bytes := no_bytes ▸ bytes_pos cfg
  rw [updateBytes_eq c m hb_lt, no_bytes, List.nil_append, ← fullWords_length]
  exact ⟨absorbWords_cur _ c cur_lt, absorbWords_lane _ c lane_lt⟩

/-- Settles O38: the full words move cursor and active lane from 0, and the flush moves them by one more. -/
theorem cursorAfterFlush : Obligations.CursorAfterFlush := by
  intro cfg c m no_bytes cur_zero lane_zero n_pos p_pos
  obtain ⟨cur_eq, lane_eq⟩ := updateBytes_cur_lane no_bytes (cur_zero ▸ n_pos) (lane_zero ▸ p_pos) m
  rw [cur_zero, Nat.zero_add] at cur_eq
  rw [lane_zero, Nat.zero_add] at lane_eq
  have n_eq := updateBytes_n c m
  constructor
  · rw [flush_cur (n_eq.symm ▸ n_pos), n_eq, cur_eq, Nat.mod_add_mod]
  · rw [flush_lane, lane_eq, Nat.mod_add_mod]

/-! ### Sweeps (R172, R174; 44_multilane.md R191) -/

/-- One lane is one round. -/
theorem sweepLanes_singleton {w : Nat} (l : Lane w) (h : Word w) : sweepLanes [l] h =
    { lanes := [{ seed := (coreRound l.seed l.lcg h).seed, lcg := (coreRound l.seed l.lcg h).lcg }]
      hash := (coreRound l.seed l.lcg h).hash
      out := (coreRound l.seed l.lcg h).out } :=
  congrArg (Sweep.mk _ _) BitVec.xor_zero

/-- The lanes `b` go on from the hash word that the lanes `a` left. -/
theorem sweepLanes_append {w : Nat} (a b : List (Lane w)) (h : Word w) : sweepLanes (a ++ b) h =
    { lanes := (sweepLanes a h).lanes ++ (sweepLanes b (sweepLanes a h).hash).lanes
      hash := (sweepLanes b (sweepLanes a h).hash).hash
      out := (sweepLanes a h).out ^^^ (sweepLanes b (sweepLanes a h).hash).out } := by
  induction a generalizing h with
  | nil => exact congrArg (Sweep.mk _ _) BitVec.zero_xor.symm
  | cons l ls ih =>
    rw [List.cons_append, sweepLanes, ih]
    exact congrArg (Sweep.mk _ _) (BitVec.xor_assoc _ _ _).symm

/-- Settles O39, from the sweep of a concatenation and of one lane. -/
theorem sweepRunsLanesInOrder : Obligations.SweepRunsLanesInOrder := by
  intro w a b l h
  rw [sweepLanes_append]
  exact ⟨rfl, rfl, rfl, sweepLanes_singleton l h⟩

/-! ### The blank rounds (R172, R173) -/

/-- A slot some blank round has reached was swept in that round, and by no later one before the cursor is round. -/
theorem blankRounds_hashAt_reached {c : Context cfg} (cur_lt : c.cur < c.n) (n_le : c.n ≤ c.hash.length) {j k : Nat}
    (k_lt : k < j) (j_le : j ≤ c.n) :
    hashAt (repeatN blankRound j c) ((c.cur + k) % c.n) =
      (sweepLanes (repeatN blankRound k c).lanes (hashAt c ((c.cur + k) % c.n))).hash := by
  induction j with
  | zero => exact absurd k_lt (Nat.not_lt_zero k)
  | succ j ih =>
    have other_slot {i : Nat} (i_lt : i < j) : (c.cur + j) % c.n ≠ (c.cur + i) % c.n := fun same =>
      i_lt.ne' (mod_add_inj j_le (i_lt.trans j_le) same)
    have cursor : (repeatN blankRound j c).cur = (c.cur + j) % c.n := blankRounds_cur j c cur_lt
    rw [repeatN_succ']
    rcases Nat.lt_succ_iff_lt_or_eq.1 k_lt with earlier | rfl
    · rw [blankRound_hashAt_ne _ (cursor ▸ (other_slot earlier).symm)]
      exact ih earlier (Nat.le_of_succ_le j_le)
    · have in_range : (repeatN blankRound k c).cur < (repeatN blankRound k c).hash.length := by
        rw [cursor, blankRounds_hash_length]
        exact (Nat.mod_lt _ (Nat.zero_lt_of_lt cur_lt)).trans_le n_le
      have untouched : hashAt (repeatN blankRound k c) ((c.cur + k) % c.n) = hashAt c ((c.cur + k) % c.n) :=
        blankRounds_hashAt_ne k c cur_lt fun _ => other_slot
      rw [← untouched, ← cursor]
      exact blankRound_hashAt_cur _ in_range

/-- Settles O40: N rounds reach the N slots from the cursor on, each once, and no other slot. -/
theorem blankRoundsTouchEverySlot : Obligations.BlankRoundsTouchEverySlot := by
  intro cfg c cur_lt n_le
  refine ⟨?cursor, fun k k_lt => blankRounds_hashAt_reached cur_lt n_le k_lt le_rfl, fun i n_le_i => ?above⟩
  case cursor => rw [blankRounds_cur _ c cur_lt, Nat.add_mod_right, Nat.mod_eq_of_lt cur_lt]
  case above =>
    have below (j : Nat) : (c.cur + j) % c.n < c.n := Nat.mod_lt _ (Nat.zero_lt_of_lt cur_lt)
    exact blankRounds_hashAt_ne _ c cur_lt fun j _ => ((below j).trans_le n_le_i).ne'

/-! ### What the digest depends on (R177)

A hash context of N slots reads and writes its first N slots only, so it runs in a block of any NMAX ≥ N as it runs in
the smallest such block, the one of NMAX = N. `trim` moves a context to that block, and what a hash runs commutes with
it. Two blocks that differ in NMAX are compared by moving both to it. -/

/-- A build with another NMAX. -/
abbrev withNmax (cfg : Config) (k : Nat) : Config := { cfg with nmax := k }

/-- A context in a block of k slots: the first k slots, and all else as it was. -/
def trim (k : Nat) (c : Context cfg) : Context (withNmax cfg k) :=
  { st := c.st, n := c.n, lanes := c.lanes, hash := c.hash.take k, cur := c.cur, lane := c.lane, hb := c.hb,
    fbit := c.fbit, filled := c.filled, fw := c.fw, fh := c.fh, fc := c.fc, kb := c.kb }

section Trim

variable {k : Nat} {c : Context cfg}

theorem hashAt_trim {i : Nat} (i_lt : i < k) : hashAt (trim k c) i = hashAt c i := by
  simp only [hashAt, trim, List.getD_eq_getElem?_getD, List.getElem?_take_of_lt i_lt]

/-- The cursor of a context in range names the same word in either block. -/
theorem hashAt_cur_trim (cur_lt : c.cur < k) : hashAt (trim k c) (trim k c).cur = hashAt c c.cur := hashAt_trim cur_lt

/-- A round of the active lane reads the slot at the cursor. -/
theorem absorbWord_trim (cur_lt : c.cur < k) (m : Word cfg.bits) :
    absorbWord (cfg := withNmax cfg k) m (trim k c) = trim k (absorbWord m c) := by
  simp only [absorbWord, laneRound, hashAt_cur_trim cur_lt]
  simp only [trim, List.take_set]
  rfl

/-- So does a sweep. -/
theorem sweepSlot_trim (cur_lt : c.cur < k) :
    sweepSlot (trim k c) = (trim k (sweepSlot c).1, (sweepSlot c).2) := by
  simp only [sweepSlot, hashAt_cur_trim cur_lt]
  simp only [trim, List.take_set]

variable (cur_lt : c.cur < c.n) (n_le : c.n ≤ k)
include cur_lt n_le

theorem absorbWords_trim (ws : List (Word cfg.bits)) :
    absorbWords (cfg := withNmax cfg k) ws (trim k c) = trim k (absorbWords ws c) := by
  induction ws generalizing c with
  | nil => rfl
  | cons w ws ih =>
    have next_lt : (absorbWord w c).cur < c.n := Nat.mod_lt _ (Nat.zero_lt_of_lt cur_lt)
    have first := absorbWord_trim (cur_lt.trans_le n_le) w
    exact (congrArg (absorbWords (cfg := withNmax cfg k) ws) first).trans (ih next_lt n_le)

theorem blankRounds_trim (j : Nat) : repeatN blankRound j (trim k c) = trim k (repeatN blankRound j c) := by
  induction j generalizing c with
  | zero => rfl
  | succ j ih =>
    have next_lt : (blankRound c).cur < c.n := Nat.mod_lt _ (Nat.zero_lt_of_lt cur_lt)
    have first : blankRound (trim k c) = trim k (blankRound c) :=
      congrArg Prod.fst (sweepSlot_trim (cur_lt.trans_le n_le))
    exact (congrArg (repeatN blankRound j) first).trans (ih next_lt n_le)

theorem squeezeWords_trim (j : Nat) : (squeezeWords j (trim k c)).2 = (squeezeWords j c).2 := by
  induction j generalizing c with
  | zero => rfl
  | succ j ih =>
    have next_lt : (sweepSlot c).1.cur < c.n := Nat.mod_lt _ (Nat.zero_lt_of_lt cur_lt)
    have rest : (squeezeWords j (trim k (sweepSlot c).1)).2 = (squeezeWords j (sweepSlot c).1).2 := ih next_lt n_le
    simp only [squeezeWords, sweepSlot_trim (cur_lt.trans_le n_le), rest]

/-- A whole message, from a fresh loader to the end of the flush. -/
theorem flush_updateBytes_trim (no_bytes : c.hb = []) (no_bit : c.fbit = false) (m : List Byte) :
    flush (updateBytes (trim k c) m) = trim k (flush (updateBytes c m)) := by
  have absorbed_lt : (absorbWords (messageWords cfg m) c).cur < (absorbWords (messageWords cfg m) c).n := by
    rw [absorbWords_cur _ c cur_lt, absorbWords_n]
    exact Nat.mod_lt _ (Nat.zero_lt_of_lt cur_lt)
  have absorbed_le : (absorbWords (messageWords cfg m) c).n ≤ k := (absorbWords_n _ c).trans_le n_le
  have rounds := blankRounds_trim absorbed_lt absorbed_le c.n
  rw [← absorbWords_trim cur_lt n_le] at rounds
  rw [flushAbsorbsWordStream cfg c m no_bytes no_bit, flushAbsorbsWordStream _ (trim k c) m no_bytes no_bit]
  exact congrArg (fun x : Context (withNmax cfg k) => { x with fbit := lastBit m }) rounds

end Trim

/-- Where HINIT without an init vector starts: the slots from 1 on are zero in either block. -/
theorem initNoIV_trim (seed : Word cfg.bits) {k : Nat} (k_pos : 1 ≤ k) (k_le : k ≤ cfg.nmax) (c : Context cfg) :
    initNoIV (cfg := withNmax cfg k) seed (trim k c) = trim k (initNoIV seed c) := by
  have slots : ((zeroState cfg.bits).hash :: List.replicate (cfg.nmax - 1) 0).take k =
      (zeroState cfg.bits).hash :: List.replicate (k - 1) 0 := by
    rw [List.take_cons k_pos, List.take_replicate, Nat.min_eq_left (Nat.sub_le_sub_right k_le 1)]
  simp only [initNoIV, trim, slots]

/-- The words of the init vector, without the zeros after them. -/
theorem loadedHash_take (n : Nat) (iv : List Byte) :
    (loadedHash cfg n iv).take n = loadedHash (withNmax cfg n) n iv := by
  have words_length : ((List.range n).map fun i => wordOperand cfg i iv).length = n := by simp
  rw [loadedHash, List.take_left' words_length, loadedHash, Nat.sub_self]
  exact (List.append_nil _).symm

/-- The warm-up starts from the first word of the init vector and writes slot 0. -/
theorem initIV_hash_of_pos (seed : Word cfg.bits) (iv : List Byte) {c : Context cfg} (n_pos : 1 ≤ c.n) :
    (initIV seed iv c).hash =
      (loadedHash cfg c.n iv).set 0 (warmUpLanes seed cfg.p (wordOperand cfg 0 iv)).2 := by
  rw [initIV_hash, loadedHash_getD_of_lt iv n_pos]

/-- Where HINIT with an init vector starts: the words of the vector stand in the first N slots. -/
theorem initIV_trim (seed : Word cfg.bits) (iv : List Byte) {c : Context cfg} (n_pos : 1 ≤ c.n) :
    initIV (cfg := withNmax cfg c.n) seed iv (trim c.n c) = trim c.n (initIV seed iv c) := by
  have lanes_eq : (initIV (cfg := withNmax cfg c.n) seed iv (trim c.n c)).lanes = (initIV seed iv c).lanes :=
    (initIV_lanes_of_pos (cfg := withNmax cfg c.n) iv seed n_pos).trans (initIV_lanes_of_pos iv seed n_pos).symm
  have hash_eq : (initIV (cfg := withNmax cfg c.n) seed iv (trim c.n c)).hash = (initIV seed iv c).hash.take c.n := by
    rw [initIV_hash_of_pos seed iv n_pos, List.take_set, loadedHash_take]
    exact initIV_hash_of_pos (cfg := withNmax cfg c.n) seed iv n_pos
  calc initIV (cfg := withNmax cfg c.n) seed iv (trim c.n c)
      = { trim c.n c with
          lanes := (initIV (cfg := withNmax cfg c.n) seed iv (trim c.n c)).lanes
          hash := (initIV (cfg := withNmax cfg c.n) seed iv (trim c.n c)).hash } := rfl
    _ = trim c.n (initIV seed iv c) := by rw [lanes_eq, hash_eq]; rfl

/-- HINIT starts the same context in either block. -/
theorem startHash_trim (iv sd : Bool) {len : Nat} (k_pos : 1 ≤ len / cfg.bytes) (k_le : len / cfg.bytes ≤ cfg.nmax)
    (payload : List Byte) (c : Context cfg) :
    startHash iv sd len payload (trim (len / cfg.bytes) c) =
      trim (len / cfg.bytes) (startHash iv sd len payload c) := by
  let c1 : Context cfg := { c with n := len / cfg.bytes }
  cases iv with
  | false =>
    have started := initNoIV_trim (seedOperand cfg sd payload) k_pos k_le c1
    exact congrArg (fun x => { rewind x with st := .empty }) started
  | true =>
    have started := initIV_trim (seedOperand cfg sd payload) (ivOperand cfg sd len payload) (c := c1) k_pos
    exact congrArg (fun x => { rewind x with st := .empty }) started

theorem trim_zero {k : Nat} (k_le : k ≤ cfg.nmax) : trim k (Context.zero cfg) = Context.zero (withNmax cfg k) := by
  simp only [trim, Context.zero, List.take_replicate, Nat.min_eq_left k_le]

theorem startHash_n (iv sd : Bool) (len : Nat) (payload : List Byte) (c : Context cfg) :
    (startHash iv sd len payload c).n = len / cfg.bytes := by
  cases iv <;> rfl

/-- UpdateBytes does not look at ST, so HUPD may as well set it first (R146). -/
theorem updateHash_eq_updateBytes (n : Nat) (payload : List Byte) (c : Context cfg) : updateHash n payload c =
    updateBytes { c with st := if n = 0 then c.st else .filling } payload :=
  (updateHash_eq n payload c).trans (updateBytes_side_st c payload _).symm

/-- The digest of a whole message, from any fresh start on. -/
theorem squeeze_flush_updateHash_trim {k : Nat} {c : Context cfg} (cur_lt : c.cur < c.n) (n_le : c.n ≤ k)
    (no_bytes : c.hb = []) (no_bit : c.fbit = false) (m : List Byte) :
    (squeeze (flush (updateHash m.length m (trim k c)))).2 = (squeeze (flush (updateHash m.length m c))).2 := by
  let c1 : Context cfg := { c with st := if m.length = 0 then c.st else .filling }
  have n_eq : (flush (updateBytes c1 m)).n = c.n := (flush_n _).trans (updateBytes_n c1 m)
  have flushed_lt : (flush (updateBytes c1 m)).cur < (flush (updateBytes c1 m)).n := by
    have n_pos : 1 ≤ (updateBytes c1 m).n := (updateBytes_n c1 m).symm ▸ Nat.zero_lt_of_lt cur_lt
    rw [flush_cur n_pos, flush_n]
    exact Nat.mod_lt _ n_pos
  have flushed : flush (updateHash m.length m (trim k c)) = trim k (flush (updateBytes c1 m)) := by
    rw [updateHash_eq_updateBytes]
    exact flush_updateBytes_trim (c := c1) cur_lt n_le no_bytes no_bit m
  rw [flushed, updateHash_eq_updateBytes]
  exact squeezeWords_trim flushed_lt (n_eq.trans_le n_le) _

/-- The digest of a message, as the three hash commands compute it from the wiped context. -/
def digestOf (cfg : Config) (iv sd : Bool) (len : Nat) (operand m : List Byte) : List Byte :=
  (squeeze (flush (updateHash m.length m (startHash iv sd len operand (Context.zero cfg))))).2

theorem digestOf_length (cfg : Config) (iv sd : Bool) {len : Nat} (whole_words : len % cfg.bytes = 0)
    (operand m : List Byte) : (digestOf cfg iv sd len operand m).length = len := by
  have n_eq : (updateHash m.length m (startHash iv sd len operand (Context.zero cfg))).n = len / cfg.bytes :=
    (updateBytes_n _ m).trans (startHash_n iv sd len operand _)
  rw [digestOf, squeeze_flush_length, n_eq]
  exact Nat.div_mul_cancel (Nat.dvd_of_mod_eq_zero whole_words)

/-- A digest of len bytes is that of the block with just the slots it needs. -/
theorem digestOf_withNmax (iv sd : Bool) {len : Nat} (good : badOutLen cfg len = false) (operand m : List Byte) :
    digestOf (withNmax cfg (len / cfg.bytes)) iv sd len operand m = digestOf cfg iv sd len operand m := by
  obtain ⟨k_pos, k_le⟩ := words_of_goodOutLen good
  have started : startHash iv sd len operand (Context.zero (withNmax cfg (len / cfg.bytes))) =
      trim (len / cfg.bytes) (startHash iv sd len operand (Context.zero cfg)) := by
    rw [← trim_zero k_le, startHash_trim iv sd k_pos k_le]
  have n_eq := startHash_n iv sd len operand (Context.zero cfg)
  rw [digestOf, digestOf, started]
  exact squeeze_flush_updateHash_trim (n_eq.symm ▸ k_pos) n_eq.le rfl rfl m

/-- An HFIN transaction in a hash context. -/
theorem runAll_hfinOf {s : State} (absorbing : s.ctx.st = .empty ∨ s.ctx.st = .filling) (hp : s.port = []) :
    runAll [hfinOf] s = .next (accept s (Context.zero s.cfg) (squeeze (flush s.ctx)).2) := by
  have decoded : decode hfinOf.cmd = .ok .hfin := decodeEncodeRoundTrip .hfin rfl
  have fits : hfinOf.payload.length = payloadLength s.cfg.bytes hfinOf.cmd := (encodedPayloadLength _ .hfin rfl).symm
  have ran : runCommand hfinOf.cmd { s with payload := hfinOf.payload } =
      .next (accept s (Context.zero s.cfg) (squeeze (flush s.ctx)).2) := by
    rw [runCommand_of_decode decoded, exec_hfin_of_absorbing (s := { s with payload := hfinOf.payload }) absorbing]
    rfl
  rw [runAll_cons hp fits ran, runAll_nil]

/-- Of an accepted command without output nothing is seen after the next one. -/
theorem accept_over_accept (s : State) (c d : Context s.cfg) (out : List Byte) :
    accept (accept s c []) d out = accept s d out := by
  simp only [accept, List.append_nil]

/-- HINIT, HUPD and HFIN from an idle block append the digest to the output. -/
theorem runAll_hash {s : State} {iv sd : Bool} {len : Nat} {operand m : List Byte} (zero : s.ctx = Context.zero s.cfg)
    (hp : s.port = []) (good : badOutLen s.cfg len = false) (len_lt : len < 2 ^ 16)
    (fits : operand.length = (if sd then s.cfg.bytes else 0) + (if iv then len else 0)) (short : m.length < 2 ^ 24) :
    runAll [{ cmd := encode (.hinit iv sd len), payload := operand }, hupdOf m, hfinOf] s =
      .next (accept s (Context.zero s.cfg) (digestOf s.cfg iv sd len operand m)) := by
  let hinit : Transaction := { cmd := encode (.hinit iv sd len), payload := operand }
  let started := startHash iv sd len operand s.ctx
  let updated := updateHash m.length m started
  have wf : (Instr.hinit iv sd len).wf = true := decide_eq_true len_lt
  have idle : s.ctx.st = .idle := congrArg Context.st zero
  have absorbing : updated.st = .empty ∨ updated.st = .filling := updateHash_absorbing (.inl rfl) _ _
  have hinit_fits : operand.length = payloadLength s.cfg.bytes hinit.cmd :=
    fits.trans (encodedPayloadLength s.cfg.bytes _ wf).symm
  have hinit_ran : runCommand hinit.cmd { s with payload := operand } = .next (accept s started []) := by
    rw [runCommand_of_decode (decodeEncodeRoundTrip _ wf),
      exec_hinit_of_legal (s := { s with payload := operand }) idle good]
    exact congrArg _ (accept_nil s started).symm
  have hupd : afterHupd m (accept s started []) = accept s updated [] := by
    rw [afterHupd_of_absorbing (.inl rfl)]
    exact accept_accept s started updated
  have digest : (squeeze (flush updated)).2 = digestOf s.cfg iv sd len operand m := by rw [digestOf, ← zero]
  calc runAll [hinit, hupdOf m, hfinOf] s
      = runAll [hupdOf m, hfinOf] (accept s started []) := runAll_cons hp hinit_fits hinit_ran
    _ = runAll [hfinOf] (accept s updated []) := by
        rw [runAll_hupdOf_cons (s := accept s started []) short hp, hupd]
    _ = .next (accept (accept s updated []) (Context.zero s.cfg) (squeeze (flush updated)).2) :=
        runAll_hfinOf (s := accept s updated []) absorbing hp
    _ = .next (accept s (Context.zero s.cfg) (digestOf s.cfg iv sd len operand m)) := by
        rw [accept_over_accept, digest]

/-- Settles O41: the digest is that of the block with just the slots it needs, and W and P make that one block. -/
theorem digestIndependentOfHistory : Obligations.DigestIndependentOfHistory := by
  intro s1 s2 iv sd len operand m inv1 inv2 idle1 idle2 hp1 hp2 same_width same_p pos len_lt whole_words capacity1
    capacity2 fits short ts
  have same_bytes : s1.cfg.bytes = s2.cfg.bytes := by rw [Config.bytes, same_width]
  have good1 := badOutLen_eq_false pos whole_words capacity1
  have good2 := badOutLen_eq_false pos (same_bytes ▸ whole_words) capacity2
  have same_digest : digestOf s1.cfg iv sd len operand m = digestOf s2.cfg iv sd len operand m := by
    have same_block : withNmax s1.cfg (len / s1.cfg.bytes) = withNmax s2.cfg (len / s2.cfg.bytes) := by
      rw [withNmax, withNmax, same_width, same_p, same_bytes]
    rw [← digestOf_withNmax iv sd good1, same_block, digestOf_withNmax iv sd good2]
  have run1 := runAll_hash (inv1.ctx.idle_zero idle1) hp1 good1 len_lt fits short
  have run2 := runAll_hash (inv2.ctx.idle_zero idle2) hp2 good2 len_lt (same_bytes ▸ fits) short
  exact ⟨_, _, digestOf s1.cfg iv sd len operand m, digestOf_length s1.cfg iv sd whole_words operand m, run1, rfl,
    run2, congrArg (s2.dout ++ ·) same_digest.symm⟩

end Sys2Proof.Machine
end

section
/-! Proofs about spec/44_multilane.md: the block with one lane (R194), one step of the firewall (R196), what a keystream
context shows (R198), and the hash commands, which leave the firewall alone (R199). -/

namespace Sys2Proof.Machine

variable {cfg : Config}

/-! ### One lane (R194) -/

/-- Settles O55: the invariant gives P lanes and an active lane below P, and a sweep over one lane is one round. -/
theorem singleLaneIsSinglePair : Obligations.SingleLaneIsSinglePair := by
  intro cfg c inv one_lane
  obtain ⟨l, lanes_eq⟩ := List.length_eq_one_iff.mp (inv.lanes_length.trans one_lane)
  have lane_zero : c.lane = 0 := Nat.lt_one_iff.mp (one_lane ▸ inv.lane_lt)
  have active : laneAt c c.lane = l := by rw [laneAt, lanes_eq, lane_zero]; rfl
  refine ⟨l, lanes_eq, lane_zero, fun m => ?next_lane, fun m => ?lane_round, ?blank, ?word⟩
  case next_lane => rw [absorbWord_lane, one_lane, Nat.mod_one]
  case lane_round => rw [absorbWord_lanes, active, lanes_eq, lane_zero, List.set_cons_zero]
  case blank => simp only [blankRound, sweepSlot, lanes_eq, sweepLanes_singleton]
  case word => rw [sweepSlot_out, lanes_eq, sweepLanes_singleton]

/-! ### One step of the firewall (R196) -/

/-- Settles O49: FirewallStep writes firewall lane f, FH[fc] and fc, and leaves all else to the context it was given. -/
theorem firewallStepFrame : Obligations.FirewallStepFrame := by
  intro cfg c f o c' r
  refine ⟨rfl, ?lane, fun g ne => ?other_lane, ?slot, fun i ne => ?other_slot, Fin.val_add c.fc 1, ?frame⟩
  case lane => exact Vector.getElem_set_self f.isLt
  case other_lane => exact Vector.getElem_set_ne f.isLt g.isLt (Fin.val_ne_of_ne ne.symm)
  case slot => exact Vector.getElem_set_self c.fc.isLt
  case other_slot => exact Vector.getElem_set_ne c.fc.isLt i.isLt (Fin.val_ne_of_ne ne.symm)
  case frame => exact ⟨rfl, rfl, rfl, rfl, rfl, rfl, rfl, rfl, rfl, rfl⟩

/-! ### What a keystream context shows (R198, 45_keystream.md R220) -/

/-- STATUS shows ERR, FILLED and ST, and nothing else of the state. -/
theorem readStatus_congr {s t : State} (err : s.err = t.err) (filled : s.ctx.filled = t.ctx.filled)
    (st : s.ctx.st = t.ctx.st) : readRegister s 0 = readRegister t 0 := by
  show statusWord s = statusWord t
  rw [statusWord, statusWord, err, filled, st]

/-- In KEYSTREAM every command but KXOR, KFIN and ROUND is rejected (R140). -/
theorem verdict_keystream (cfg : Config) (i : Instr) :
    verdict cfg .keystream i = .state ∨ (∃ n, i = .kxor n) ∨ i = .kfin ∨ i = .round := by
  cases i with
  | hinit | hupd | hfin | kinit => exact .inl rfl
  | kxor n => exact .inr (.inl ⟨n, rfl⟩)
  | kfin => exact .inr (.inr (.inl rfl))
  | round => exact .inr (.inr (.inr rfl))

/-- Settles O51: a rejected command keeps what STATUS shows, KFIN leaves the wiped context, and ROUND's output is of
its payload alone. -/
theorem onlyKxorRevealsKeystream : Obligations.OnlyKxorRevealsKeystream := by
  intro s c i st st' filled not_kxor
  rcases verdict_keystream s.cfg i with state | ⟨n, kxor⟩ | rfl | rfl
  case inr.inl => exact absurd kxor (not_kxor n)
  case inl =>
    have rejected : exec i s = .next (reject .state s) := by
      rw [exec_rejected (by rw [st, state]; decide), st, state]
    have rejected' : exec i { s with ctx := c } = .next (reject .state { s with ctx := c }) := by
      rw [exec_rejected (by rw [st', state]; decide), st', state]
    exact ⟨_, _, rejected, rejected', rfl, readStatus_congr rfl filled (st'.trans st.symm)⟩
  case inr.inr.inl =>
    exact ⟨_, _, exec_accepted (if_pos st), exec_accepted (s := { s with ctx := c }) (if_pos st'), rfl, rfl⟩
  case inr.inr.inr => exact ⟨_, _, rfl, rfl, rfl, readStatus_congr rfl filled (st'.trans st.symm)⟩

/-! ### The hash commands and the firewall (R199) -/

/-- A context with another firewall state. -/
abbrev withFirewall (c : Context cfg) (fw : Vector (Lane cfg.bits) 2) (fh : Vector (Word cfg.bits) 3) (fc : Fin 3) :
    Context cfg :=
  { c with fw := fw, fh := fh, fc := fc }

/-- `f` hands the firewall on unread. -/
def CarriesFirewall (f : Context cfg → Context cfg) : Prop :=
  ∀ c fw fh fc, f (withFirewall c fw fh fc) = withFirewall (f c) fw fh fc

/-- What hands on any firewall leaves the one it was given. -/
theorem CarriesFirewall.keeps {f : Context cfg → Context cfg} (carries : CarriesFirewall f) (c : Context cfg) :
    (f c).fw = c.fw ∧ (f c).fh = c.fh ∧ (f c).fc = c.fc := by
  have same : f c = withFirewall (f c) c.fw c.fh c.fc := carries c c.fw c.fh c.fc
  rw [same]
  exact ⟨rfl, rfl, rfl⟩

theorem carriesFirewall_updateByte (b : Byte) : CarriesFirewall (cfg := cfg) (updateByte · b) := by
  intro c fw fh fc
  simp only [updateByte]
  split <;> rfl

theorem carriesFirewall_updateBytes (m : List Byte) : CarriesFirewall (cfg := cfg) (updateBytes · m) := by
  induction m with
  | nil => exact fun _ _ _ _ => rfl
  | cons b m ih =>
    intro c fw fh fc
    have first := carriesFirewall_updateByte b c fw fh fc
    exact (congrArg (updateBytes · m) first).trans (ih (updateByte c b) fw fh fc)

theorem carriesFirewall_updateHash (n : Nat) (payload : List Byte) :
    CarriesFirewall (cfg := cfg) (updateHash n payload) := by
  intro c fw fh fc
  simp only [updateHash_eq, carriesFirewall_updateBytes payload c fw fh fc]

theorem carriesFirewall_startHash (iv sd : Bool) (len : Nat) (payload : List Byte) :
    CarriesFirewall (cfg := cfg) (startHash iv sd len payload) := by
  intro c fw fh fc
  cases iv <;> rfl

theorem carriesFirewall_blankRounds (k : Nat) : CarriesFirewall (cfg := cfg) (repeatN blankRound k) := by
  induction k with
  | zero => exact fun _ _ _ _ => rfl
  | succ k ih => exact fun c => ih (blankRound c)

/-- Flush is the tail word, which no firewall element enters, and then blank rounds. -/
theorem carriesFirewall_flush : CarriesFirewall (cfg := cfg) flush := fun c =>
  carriesFirewall_blankRounds c.n (absorbWord (tailWord cfg.bits c.hb c.fbit) { c with hb := [] })

/-- The output words do not depend on the firewall. -/
theorem squeeze_withFirewall (c : Context cfg) (fw fh fc) :
    (squeeze (withFirewall c fw fh fc)).2 = (squeeze c).2 := by
  show (squeezeWords c.n (withFirewall c fw fh fc)).2 = (squeezeWords c.n c).2
  rw [squeezeWords_side]

/-- A command that emits nothing, and whose effect hands the firewall on, does the same whatever the firewall holds. -/
theorem exec_of_carriesFirewall {i : Instr} {s : State} {f : Context s.cfg → Context s.cfg}
    (carries : CarriesFirewall f) (silent : ∀ c, effect s.payload c i = (f c, [])) :
    ∃ (c : Context s.cfg) (e : ErrCode),
      exec i s = .next { s with ctx := c, err := e, payload := [] } ∧
      c.fw = s.ctx.fw ∧ c.fh = s.ctx.fh ∧ c.fc = s.ctx.fc ∧
      ∀ fw fh fc, exec i { s with ctx := withFirewall s.ctx fw fh fc } =
        .next { s with ctx := withFirewall c fw fh fc, err := e, payload := [] } := by
  by_cases ok : verdict s.cfg s.ctx.st i = .ok
  case pos =>
    obtain ⟨fw_eq, fh_eq, fc_eq⟩ := carries.keeps s.ctx
    refine ⟨f s.ctx, .ok, ?_, fw_eq, fh_eq, fc_eq, fun fw fh fc => ?_⟩
    · rw [exec_accepted ok, silent, accept_nil]
    · rw [exec_accepted (s := { s with ctx := withFirewall s.ctx fw fh fc }) ok, silent, carries, accept_nil]
  case neg =>
    exact ⟨s.ctx, _, exec_rejected ok, rfl, rfl, rfl, fun fw fh fc =>
      exec_rejected (s := { s with ctx := withFirewall s.ctx fw fh fc }) ok⟩

/-- Settles O52: HINIT and HUPD hand the firewall on unread, Flush hands it on and Squeeze does not read it, and the
invariant has it zero outside KEYSTREAM. -/
theorem hashIgnoresFirewall : Obligations.HashIgnoresFirewall := by
  intro s
  refine ⟨fun i hash => ?carried, fun fw fh fc absorbing => ?digest, fun inv absorbing => ?zero⟩
  case carried =>
    rcases hash with ⟨iv, sd, len, rfl⟩ | ⟨n, rfl⟩
    · exact exec_of_carriesFirewall (carriesFirewall_startHash iv sd len s.payload) fun _ => rfl
    · exact exec_of_carriesFirewall (carriesFirewall_updateHash n s.payload) fun _ => rfl
  case digest =>
    have finished := exec_hfin_of_absorbing (s := { s with ctx := withFirewall s.ctx fw fh fc }) absorbing
    rw [carriesFirewall_flush, squeeze_withFirewall] at finished
    exact finished
  case zero =>
    have not_keystream : s.ctx.st ≠ .keystream := by rcases absorbing with st | st <;> simp [st]
    obtain ⟨fw_zero, fh_zero, fc_zero, _⟩ := inv.ctx.firewall_zero not_keystream
    exact ⟨fw_zero, fh_zero, fc_zero⟩

end Sys2Proof.Machine
end

section
/-! Proofs about spec/45_keystream.md: KINIT (R210 to R213), KXOR (R214 to R217), the keystream of a context (R222),
decryption (R218), KFIN (R219), and the builds without a keystream generator (R221). -/

namespace Sys2Proof.Machine

variable {cfg : Config}

/-! ### KFIN (R219) -/

/-- KFIN in a keystream context. -/
theorem exec_kfin_of_keystream {s : State} (live : s.ctx.st = .keystream) :
    exec .kfin s = .next (accept s (Context.zero s.cfg) []) :=
  exec_accepted (if_pos live)

/-- Settles O48: KFIN accepts, with the wiped context and no output. -/
theorem kfinWipes : Obligations.KfinWipes := fun s live =>
  (exec_kfin_of_keystream live).trans (congrArg _ (accept_nil s _))

/-! ### Builds without a keystream generator (R221) -/

/-- Settles O50: no context of such a build is in KEYSTREAM, and KINIT's check of W comes right after that of ST. -/
theorem keystreamOnlyAtWidth64 : Obligations.KeystreamOnlyAtWidth64 := by
  intro s inv narrow
  have not_keystream : s.ctx.st ≠ .keystream := fun st => narrow (inv.ctx.keystream_shape st).1
  have rejected {i : Instr} {e : ErrCode} (code : verdict s.cfg s.ctx.st i = e) (failed : e ≠ .ok) :
      exec i s = .next { s with err := e, payload := [] } := by
    subst code
    exact exec_rejected failed
  refine ⟨fun klen nlen idle => ?kinit_idle, fun klen nlen live => ?kinit_live, fun n => ?kxor, ?kfin, ?ksn⟩
  case kinit_idle => exact rejected (by simp [verdict, idle, narrow]) (by decide)
  case kinit_live => exact rejected (if_pos live) (by decide)
  case kxor => exact rejected (if_neg not_keystream) (by decide)
  case kfin => exact rejected (if_neg not_keystream) (by decide)
  case ksn =>
    obtain ⟨_, _, ksn, _⟩ := paramRegisterLayout s inv.legal
    exact ksn.trans (if_neg narrow)

/-! ### KINIT (R210 to R213) -/

/-- The context that absorbs key and nonce (R212): the zero-state shortcut with N = KS_N, cursor, active lane and loader
at their start. -/
abbrev keyless (c : Context cfg) : Context cfg := rewind (initNoIV 0 { c with n := ksN })

/-- KINIT's effect on the context: the flushed absorption of key and nonce, then a fresh firewall. -/
theorem startKeystream_eq (klen nlen : Nat) (payload : List Byte) (c : Context cfg) :
    startKeystream klen nlen payload c =
      { flush (updateBytes (keyless c) (keyOperand klen payload ++ nonceOperand klen nlen payload)) with
        st := .keystream
        fw := Vector.replicate 2 { seed := (zeroState cfg.bits).seed, lcg := (zeroState cfg.bits).lcg }
        fh := #v[(zeroState cfg.bits).hash, 0, 0]
        fc := 0
        kb := [] } := rfl

/-- Key and nonce make up the payload (30_encoding.md R81). -/
theorem keyOperand_append_nonceOperand {klen nlen : Nat} {payload : List Byte} (fits : payload.length = klen + nlen) :
    keyOperand klen payload ++ nonceOperand klen nlen payload = payload := by
  have all_left : nonceOperand klen nlen payload = payload.drop klen :=
    List.take_of_length_le (by rw [List.length_drop]; omega)
  rw [all_left, keyOperand, List.take_append_drop]

/-- No seed override changes nothing of the zero-state shortcut. -/
theorem keyless_eq (c : Context cfg) : keyless c =
    { c with
      n := 16
      lanes := List.replicate cfg.p { seed := (zeroState cfg.bits).seed, lcg := (zeroState cfg.bits).lcg }
      hash := (zeroState cfg.bits).hash :: List.replicate (cfg.nmax - 1) 0
      cur := 0
      lane := 0
      hb := []
      fbit := false
      filled := false } := by
  have seed : (zeroState cfg.bits).seed ^^^ 0 = (zeroState cfg.bits).seed := BitVec.xor_zero
  rw [keyless, initNoIV, seed]
  rfl

/-- The active lane after some words, in a block of any number of lanes. -/
theorem absorbWords_lane_of_reduced (ws : List (Word cfg.bits)) {c : Context cfg} (reduced : c.lane % cfg.p = c.lane) :
    (absorbWords ws c).lane = (c.lane + ws.length) % cfg.p := by
  induction ws using List.reverseRecOn with
  | nil => exact reduced.symm
  | append_singleton ws w ih =>
    rw [absorbWords_append, absorbWords_singleton, absorbWord_lane, ih, Nat.mod_add_mod, List.length_append,
      List.length_singleton, Nat.add_assoc]

/-- What a whole message leaves in the counters and the loader, from a fresh context to the end of the flush: its full
words and its tail word move cursor and active lane, and the blank rounds bring the cursor back. -/
theorem flush_updateBytes_counters {c : Context cfg} (no_bytes : c.hb = []) (no_bit : c.fbit = false)
    (cur_zero : c.cur = 0) (lane_zero : c.lane = 0) (n_pos : 0 < c.n) (m : List Byte) :
    let c' := flush (updateBytes c m)
    let words := m.length / cfg.bytes + 1
    c'.hb = [] ∧ c'.fbit = lastBit m ∧ c'.cur = words % c.n ∧ c'.lane = words % cfg.p ∧
      c'.filled = (c.filled || decide (c.n ≤ words)) := by
  intro c' words
  have word_count : (messageWords cfg m).length = words := by
    rw [messageWords, List.length_append, fullWords_length, List.length_singleton]
  have cur_eq : (absorbWords (messageWords cfg m) c).cur = words % c.n := by
    rw [absorbWords_cur _ c (cur_zero ▸ n_pos), word_count, cur_zero, Nat.zero_add]
  have lane_eq : (absorbWords (messageWords cfg m) c).lane = words % cfg.p := by
    rw [absorbWords_lane_of_reduced _ (by rw [lane_zero, Nat.zero_mod]), word_count, lane_zero, Nat.zero_add]
  have filled_eq : (absorbWords (messageWords cfg m) c).filled = (c.filled || decide (c.n ≤ words)) := by
    rw [absorbWords_filled _ c (cur_zero ▸ n_pos), word_count, cur_zero, Nat.zero_add]
  have in_range : (absorbWords (messageWords cfg m) c).cur < (absorbWords (messageWords cfg m) c).n := by
    rw [cur_eq, absorbWords_n]
    exact Nat.mod_lt _ n_pos
  have round : (repeatN blankRound c.n (absorbWords (messageWords cfg m) c)).cur = words % c.n := by
    rw [blankRounds_cur _ _ in_range, cur_eq, absorbWords_n, Nat.add_mod_right, Nat.mod_mod]
  have stream : c' = { repeatN blankRound c.n (absorbWords (messageWords cfg m) c) with fbit := lastBit m } :=
    flushAbsorbsWordStream cfg c m no_bytes no_bit
  rw [blankRounds_frame] at stream
  rw [stream]
  exact ⟨(absorbWords_hb _ c).trans no_bytes, rfl, round, lane_eq, filled_eq⟩

/-- KINIT in IDLE with legal lengths starts the keystream context. -/
theorem exec_kinit_of_legal {s : State} {klen nlen : Nat} (idle : s.ctx.st = .idle) (w64 : s.cfg.width = .w64)
    (good_key : badKeyLen klen = false) (good_nonce : badNonceLen nlen = false) :
    exec (.kinit klen nlen) s = .next (accept s (startKeystream klen nlen s.payload s.ctx) []) :=
  exec_accepted (by simp [verdict, idle, w64, good_key, good_nonce])

theorem badKeyLen_eq_false {klen : Nat} (ge : 16 ≤ klen) (le : klen ≤ 128) (whole_units : klen % 8 = 0) :
    badKeyLen klen = false :=
  Bool.eq_false_iff.2 (mt badKey.1 (by omega))

theorem badNonceLen_eq_false {nlen : Nat} (le : nlen ≤ 96) (whole_units : nlen % 8 = 0) : badNonceLen nlen = false :=
  Bool.eq_false_iff.2 (mt badNonce.1 (by omega))

theorem bytes_of_w64 (w64 : cfg.width = .w64) : cfg.bytes = 8 := by rw [Config.bytes, w64]; rfl

/-- Settles O42: key and nonce make up the payload, and absorbing it from the fresh context has closed-form counters. -/
theorem kinitStartsKeystream : Obligations.KinitStartsKeystream := by
  intro s klen nlen idle w64 klen_ge klen_le klen_units nlen_le nlen_units fits z fresh
  have good_key := badKeyLen_eq_false klen_ge klen_le klen_units
  have good_nonce := badNonceLen_eq_false nlen_le nlen_units
  have started : startKeystream klen nlen s.payload s.ctx = { flush (updateBytes fresh s.payload) with
      st := .keystream
      fw := Vector.replicate 2 { seed := z.seed, lcg := z.lcg }
      fh := #v[z.hash, 0, 0]
      fc := 0
      kb := [] } := by
    rw [startKeystream_eq, keyOperand_append_nonceOperand fits, keyless_eq]
  obtain ⟨hb_eq, fbit_eq, cur_eq, lane_eq, filled_eq⟩ :=
    flush_updateBytes_counters (c := fresh) rfl rfl rfl rfl (show 0 < 16 by decide) s.payload
  rw [fits, bytes_of_w64 w64] at cur_eq lane_eq filled_eq
  refine ⟨startKeystream klen nlen s.payload s.ctx, ?executed, started, ?_⟩
  case executed => exact (exec_kinit_of_legal idle w64 good_key good_nonce).trans (congrArg _ (accept_nil s _))
  rw [started]
  refine ⟨(flush_n _).trans (updateBytes_n _ _), hb_eq, fbit_eq, cur_eq, lane_eq, filled_eq.trans ?filled⟩
  case filled =>
    have reaches_last_slot : 16 ≤ (klen + nlen) / 8 + 1 ↔ 120 ≤ klen + nlen := by omega
    exact (Bool.false_or _).trans (decide_eq_decide.2 reaches_last_slot)

/-! ### KXOR (R215, R216) -/

/-- KXOR in a keystream context runs its loop over the payload. -/
theorem exec_kxor_of_keystream {s : State} (live : s.ctx.st = .keystream) :
    exec (.kxor s.payload.length) s =
      .next (accept s (xorBytes s.payload s.ctx).1 (xorBytes s.payload s.ctx).2) := by
  have ok : verdict s.cfg s.ctx.st (.kxor s.payload.length) = .ok := if_pos live
  rw [exec_accepted ok]
  simp only [effect, List.take_length]

/-- The loop emits the data XOR the keystream: as many blocks as there are data bytes are more than enough. -/
theorem xorBytes_eq_zipWith (data : List Byte) (c : Context cfg) :
    (xorBytes data c).2 = List.zipWith (· ^^^ ·) data (c.kb ++ keystreamBlocks data.length c) := by
  have block_pos : 0 < 2 * cfg.bytes := Nat.mul_pos Nat.two_pos (bytes_pos cfg)
  refine xorBytes_out data c data.length ?_
  rw [List.length_append, keystreamBlocks_length]
  exact (Nat.le_mul_of_pos_left _ block_pos).trans (Nat.le_add_left _ _)

/-- Settles O43, from what the loop emits and the keystream it leaves. -/
theorem kxorEmitsDataXorKeystream : Obligations.KxorEmitsDataXorKeystream := by
  rintro s _ live rfl
  refine ⟨(xorBytes s.payload s.ctx).1, ?_, xorBytes_rest s.payload s.ctx⟩
  rw [exec_kxor_of_keystream live, xorBytes_eq_zipWith]
  rfl

/-- The number of blocks is fixed by the bytes they were generated for: what is left over is less than a block. -/
theorem blocks_eq_blocksFor {b left left' n : Nat} (balance : left' + n = left + 16 * b)
    (left'_lt : left' < 16) : b = blocksFor 8 left n := by
  rw [blocksFor]
  omega

/-- Settles O47: the loop's own count of blocks is the least that suffices, and it writes nothing but the counters and
kb. -/
theorem kxorCounters : Obligations.KxorCounters := by
  intro s inv live blocks
  have bytes_eq := bytes_of_w64 (inv.ctx.keystream_shape live).1
  have cur_lt : s.ctx.cur < s.ctx.n := inv.ctx.live_cur (by rw [live]; decide)
  obtain ⟨b, balance, kb_lt, cur_eq, lane_eq, fc_eq⟩ :=
    xorBytes_counters s.payload s.ctx cur_lt inv.ctx.lane_lt inv.ctx.kb_length
  rw [bytes_eq] at balance kb_lt
  have b_eq : b = blocks := by
    simp only [blocks, bytes_eq]
    exact blocks_eq_blocksFor balance kb_lt
  subst b_eq
  obtain ⟨st_eq, n_eq, hb_eq, fbit_eq, filled_eq⟩ : (xorBytes s.payload s.ctx).1.st = s.ctx.st ∧
      (xorBytes s.payload s.ctx).1.n = s.ctx.n ∧ (xorBytes s.payload s.ctx).1.hb = s.ctx.hb ∧
      (xorBytes s.payload s.ctx).1.fbit = s.ctx.fbit ∧ (xorBytes s.payload s.ctx).1.filled = s.ctx.filled := by
    rw [xorBytes_frame]
    exact ⟨rfl, rfl, rfl, rfl, rfl⟩
  refine ⟨_, _, exec_kxor_of_keystream live, xorBytes_length _ _, balance, Nat.le_of_lt_succ kb_lt, cur_eq, lane_eq,
    fc_eq, st_eq, n_eq, hb_eq, fbit_eq, filled_eq, fun empty => ?nothing⟩
  case nothing => rw [empty]; exact ⟨rfl, rfl⟩

/-! ### Sequences of KXOR commands (R217, R222) -/

/-- Settles O44: the pieces' commands emit what one loop over all their bytes would, and no leftover comes first. -/
theorem keystreamOfContext : Obligations.KeystreamOfContext := by
  intro s pieces live no_leftover hp short
  obtain ⟨t, ran, out⟩ := runAll_kxorOf (fun p mem => Nat.le_pred_of_lt (short p mem)) live hp
  rw [xorBytes_eq_zipWith, no_leftover, List.nil_append] at out
  exact ⟨t, ran, out⟩

/-- What one KXOR of some data bytes leaves, accepted or rejected. -/
def afterKxor (bytes : List Byte) (s : State) : State :=
  if s.ctx.st = .keystream then accept s (xorBytes bytes s.ctx).1 (xorBytes bytes s.ctx).2 else reject .state s

theorem afterKxor_of_keystream {s : State} (live : s.ctx.st = .keystream) (bytes : List Byte) :
    afterKxor bytes s = accept s (xorBytes bytes s.ctx).1 (xorBytes bytes s.ctx).2 := if_pos live

theorem afterKxor_of_not_keystream {s : State} (other : s.ctx.st ≠ .keystream) (bytes : List Byte) :
    afterKxor bytes s = reject .state s := if_neg other

theorem afterKxor_port (bytes : List Byte) (s : State) : (afterKxor bytes s).port = s.port := by
  rw [afterKxor]
  split <;> rfl

/-- A transaction of an encoded command, with the payload it announces, is that command's exec. -/
theorem runAll_encode_cons {i : Instr} {payload : List Byte} {s s' : State} (wf : i.wf = true) (hp : s.port = [])
    (fits : payload.length = payloadLength s.cfg.bytes (encode i))
    (executed : exec i { s with payload := payload } = .next s') (ts : List Transaction) :
    runAll ({ cmd := encode i, payload := payload } :: ts) s = runAll ts s' :=
  runAll_cons hp fits ((runCommand_of_decode (decodeEncodeRoundTrip i wf) _).trans executed)

theorem runAll_kxorOf_cons {bytes : List Byte} (short : bytes.length < 2 ^ 24) {s : State} (hp : s.port = [])
    (ts : List Transaction) : runAll (kxorOf bytes :: ts) s = runAll ts (afterKxor bytes s) := by
  have wf : (Instr.kxor bytes.length).wf = true := decide_eq_true short
  refine runAll_encode_cons wf hp (encodedPayloadLength _ _ wf).symm ?_ ts
  by_cases live : s.ctx.st = .keystream
  · rw [exec_kxor_of_keystream (s := { s with payload := bytes }) live, afterKxor_of_keystream live]
    rfl
  · rw [exec_rejected (s := { s with payload := bytes }) (by simp [verdict, live]), afterKxor_of_not_keystream live]
    simp only [verdict, if_neg live]
    rfl

/-- Two KXOR commands are the one of both payloads: both are rejected, or the second goes on where the first stopped. -/
theorem afterKxor_append (a b : List Byte) (s : State) : afterKxor b (afterKxor a s) = afterKxor (a ++ b) s := by
  by_cases live : s.ctx.st = .keystream
  · rw [afterKxor_of_keystream live, afterKxor_of_keystream live,
      afterKxor_of_keystream ((xorBytes_st a s.ctx).trans live), xorBytes_append]
    simp only [accept, List.append_assoc]
  · rw [afterKxor_of_not_keystream live, afterKxor_of_not_keystream live,
      afterKxor_of_not_keystream (s := reject .state s) live]
    rfl

/-- After a KXOR, further ones leave what the one KXOR of all the bytes leaves. -/
theorem runAll_map_kxorOf_append (sent : List Byte) {pieces : List (List Byte)}
    (short : ∀ p ∈ pieces, p.length < 2 ^ 24) {s : State} (hp : s.port = []) (ts : List Transaction) :
    runAll (pieces.map kxorOf ++ ts) (afterKxor sent s) = runAll ts (afterKxor (sent ++ pieces.flatten) s) := by
  induction pieces generalizing sent with
  | nil => rw [List.flatten_nil, List.append_nil, List.map_nil, List.nil_append]
  | cons p ps ih =>
    obtain ⟨p_short, ps_short⟩ := List.forall_mem_cons.1 short
    rw [List.map_cons, List.cons_append, runAll_kxorOf_cons p_short ((afterKxor_port sent s).trans hp),
      afterKxor_append, ih (sent ++ p) ps_short, List.flatten_cons, List.append_assoc]

/-- Settles O45: both runs end in the state that the one KXOR of all the bytes leaves. -/
theorem kxorSplitIndependent : Obligations.KxorSplitIndependent := by
  intro s pieces hp nonempty short
  obtain ⟨p, ps, rfl⟩ := List.exists_cons_of_ne_nil nonempty
  have piece_short {q : List Byte} (mem : q ∈ p :: ps) : q.length < 2 ^ 24 :=
    (List.sublist_flatten_of_mem mem).length_le.trans_lt short
  calc runAll ((p :: ps).map kxorOf) s
      = runAll (ps.map kxorOf ++ []) (afterKxor p s) := by
        rw [List.map_cons, List.append_nil, runAll_kxorOf_cons (piece_short List.mem_cons_self) hp]
    _ = runAll [] (afterKxor (p :: ps).flatten s) :=
        runAll_map_kxorOf_append p (fun _ mem => piece_short (List.mem_cons_of_mem p mem)) hp []
    _ = runAll [kxorOf (p :: ps).flatten] s := (runAll_kxorOf_cons short hp []).symm

/-! ### Encrypting twice (R218) -/

/-- The loop steps on by the number of data bytes, whatever they are, so that a second run over its output meets the
same keystream bytes. -/
theorem xorBytes_xorBytes (data : List Byte) (c : Context cfg) : (xorBytes (xorBytes data c).2 c).2 = data := by
  induction data generalizing c with
  | nil => rfl
  | cons d ds ih =>
    have twice (k : Byte) : d ^^^ k ^^^ k = d := by rw [BitVec.xor_assoc, BitVec.xor_self, BitVec.xor_zero]
    rw [xorBytes_cons d ds c]
    simp only [xorBytes_cons, twice, ih]

/-- Absorbing a message and flushing neither reads nor writes ST, the firewall and kb. -/
theorem flush_updateBytes_side {c : Context cfg} (no_bytes : c.hb = []) (no_bit : c.fbit = false) (m : List Byte)
    (st fw fh fc kb) :
    flush (updateBytes { c with st := st, fw := fw, fh := fh, fc := fc, kb := kb } m) =
      { flush (updateBytes c m) with st := st, fw := fw, fh := fh, fc := fc, kb := kb } := by
  rw [flushAbsorbsWordStream cfg c m no_bytes no_bit,
    flushAbsorbsWordStream cfg { c with st := st, fw := fw, fh := fh, fc := fc, kb := kb } m no_bytes no_bit,
    absorbWords_side _ c st c.hb c.fbit fw fh fc kb, blankRounds_side, absorbWords_frame, blankRounds_frame]

/-- KINIT overwrites every element of the context it starts from. -/
theorem startKeystream_of_any (klen nlen : Nat) (payload : List Byte) (c d : Context cfg) :
    startKeystream klen nlen payload c = startKeystream klen nlen payload d := by
  have other : keyless c = { keyless d with st := c.st, fw := c.fw, fh := c.fh, fc := c.fc, kb := c.kb } := rfl
  rw [startKeystream_eq, startKeystream_eq, other, flush_updateBytes_side rfl rfl]

/-- The keystream context of a key and a nonce. -/
def keyed (cfg : Config) (key nonce : List Byte) : Context cfg :=
  startKeystream key.length nonce.length (key ++ nonce) (Context.zero cfg)

section Encrypt

variable {s : State} {key nonce : List Byte} (hp : s.port = [])
include hp

theorem runAll_kinitOf_cons (idle : s.ctx.st = .idle) (w64 : s.cfg.width = .w64)
    (good_key : badKeyLen key.length = false) (good_nonce : badNonceLen nonce.length = false)
    (ts : List Transaction) :
    runAll (kinitOf key nonce :: ts) s = runAll ts (accept s (keyed s.cfg key nonce) []) := by
  have key_bounds := mt badKey.2 (Bool.eq_false_iff.1 good_key)
  have nonce_bounds := mt badNonce.2 (Bool.eq_false_iff.1 good_nonce)
  have wf : (Instr.kinit key.length nonce.length).wf = true :=
    Bool.and_eq_true_iff.2 ⟨decide_eq_true (by omega), decide_eq_true (by omega)⟩
  refine runAll_encode_cons wf hp (List.length_append.trans (encodedPayloadLength _ _ wf).symm) ?_ ts
  rw [exec_kinit_of_legal (s := { s with payload := key ++ nonce }) idle w64 good_key good_nonce]
  exact congrArg (fun c => Host.Outcome.next (accept s c [])) (startKeystream_of_any _ _ (key ++ nonce) s.ctx _)

theorem runAll_kfinOf (live : s.ctx.st = .keystream) :
    runAll [kfinOf] s = .next (accept s (Context.zero s.cfg) []) := by
  have fits : kfinOf.payload.length = payloadLength s.cfg.bytes (encode .kfin) :=
    (encodedPayloadLength _ .kfin rfl).symm
  have executed := exec_kfin_of_keystream (s := { s with payload := [] }) live
  exact (runAll_encode_cons rfl hp fits executed []).trans (runAll_nil _)

/-- KINIT, KXOR commands and KFIN from an idle block: the output is the pieces' bytes through the loop, from the
context of the key and the nonce, and the block is idle again. -/
theorem runAll_encrypt (idle : s.ctx.st = .idle) (w64 : s.cfg.width = .w64)
    (good_key : badKeyLen key.length = false) (good_nonce : badNonceLen nonce.length = false)
    {pieces : List (List Byte)} (short : ∀ p ∈ pieces, p.length < 2 ^ 24) :
    runAll (kinitOf key nonce :: pieces.map kxorOf ++ [kfinOf]) s =
      .next (accept s (Context.zero s.cfg) (xorBytes pieces.flatten (keyed s.cfg key nonce)).2) := by
  let started := accept s (keyed s.cfg key nonce) []
  let emitted := xorBytes pieces.flatten (keyed s.cfg key nonce)
  have live : started.ctx.st = .keystream := rfl
  have nothing_sent : afterKxor [] started = started :=
    (afterKxor_of_keystream live []).trans (accept_over_accept s _ _ [])
  have all_sent : afterKxor pieces.flatten started = accept s emitted.1 emitted.2 :=
    (afterKxor_of_keystream live _).trans (accept_over_accept s _ _ _)
  calc runAll (kinitOf key nonce :: pieces.map kxorOf ++ [kfinOf]) s
      = runAll (pieces.map kxorOf ++ [kfinOf]) (afterKxor [] started) := by
        rw [List.cons_append, runAll_kinitOf_cons hp idle w64 good_key good_nonce, nothing_sent]
    _ = runAll [kfinOf] (accept s emitted.1 emitted.2) := by
        rw [runAll_map_kxorOf_append [] short (s := started) hp, List.nil_append, all_sent]
    _ = .next (accept (accept s emitted.1 emitted.2) (Context.zero s.cfg) []) :=
        runAll_kfinOf (s := accept s emitted.1 emitted.2) hp ((xorBytes_st _ _).trans live)
    _ = .next (accept s (Context.zero s.cfg) emitted.2) := by
        simp only [accept, List.append_nil]

end Encrypt

/-- Settles O46: the run leaves the block idle, and the loop from the same context undoes itself. -/
theorem kxorSelfInverse : Obligations.KxorSelfInverse := by
  intro s key nonce pieces hp idle w64 klen_ge klen_le klen_units nlen_le nlen_units short
  have good_key := badKeyLen_eq_false klen_ge klen_le klen_units
  have good_nonce := badNonceLen_eq_false nlen_le nlen_units
  refine ⟨_, _, runAll_encrypt hp idle w64 good_key good_nonce short, rfl, fun pieces' short' same => ?_⟩
  let t := accept s (Context.zero s.cfg) (xorBytes pieces.flatten (keyed s.cfg key nonce)).2
  refine ⟨_, runAll_encrypt (s := t) hp rfl w64 good_key good_nonce short', ?_⟩
  rw [same]
  exact congrArg (t.dout ++ ·) (xorBytes_xorBytes pieces.flatten (keyed s.cfg key nonce))

end Sys2Proof.Machine
end

section
/-! Proofs about spec/60_exceptions.md: the one Check of R242 gives the code that decoding and the command's own rule
raise piece by piece, and the step of R243 follows it. -/

namespace Sys2Proof

/-- Why a word does not decode: the opcode has no row (R75), or it has one and a reserved bit is set (R74). -/
theorem decode_error_cases {cmd : BitVec 32} {e : DecodeError} (undecodable : decode cmd = .error e) :
    (e = .illegalOpcode ∧ (opcodeOf cmd = 0 ∨ 8 ≤ opcodeOf cmd)) ∨
    (e = .reservedField ∧ ¬ (opcodeOf cmd = 0 ∨ 8 ≤ opcodeOf cmd) ∧ reservedField (opcodeOf cmd) cmd ≠ 0) := by
  by_cases illegal : opcodeOf cmd = 0 ∨ 8 ≤ opcodeOf cmd
  · rw [decode_illegal illegal] at undecodable
    exact .inl ⟨(Except.error.inj undecodable).symm, illegal⟩
  · by_cases clear : reservedField (opcodeOf cmd) cmd = 0
    · obtain ⟨i, decoded⟩ := exists_decode illegal clear
      exact nomatch decoded.symm.trans undecodable
    · rw [decode_reserved illegal clear] at undecodable
      exact .inr ⟨(Except.error.inj undecodable).symm, illegal, clear⟩

end Sys2Proof

namespace Sys2Proof.Machine

variable {cfg : Config} {cmd : BitVec 32} {st : CtxState}

/-! ### Check, test by test (R242) -/

theorem check_of_illegal (illegal : opcodeOf cmd = 0 ∨ 8 ≤ opcodeOf cmd) : check cfg cmd st = .opcode :=
  if_pos (by omega)

theorem check_of_reserved (legal : ¬ (opcodeOf cmd = 0 ∨ 8 ≤ opcodeOf cmd))
    (reserved_set : reservedField (opcodeOf cmd) cmd ≠ 0) : check cfg cmd st = .field := by
  have in_range : ¬ (opcodeOf cmd < 1 ∨ 7 < opcodeOf cmd) := by omega
  have masked : cmd &&& reservedMask (opcodeOf cmd) ≠ 0 := mt (reservedMask_iff cmd legal).1 reserved_set
  rw [check, if_neg in_range, if_pos masked]

/-- Of a word that decodes, Check looks at ST and the operands as the command's own rule does. -/
theorem check_of_decode {i : Instr} (decoded : decode cmd = .ok i) : check cfg cmd st = verdict cfg st i := by
  have legal : ¬ (opcodeOf cmd = 0 ∨ 8 ≤ opcodeOf cmd) := fun illegal =>
    nomatch (decode_illegal illegal).symm.trans decoded
  obtain ⟨_, clear⟩ := opcode_of_decode decoded
  have in_range : ¬ (opcodeOf cmd < 1 ∨ 7 < opcodeOf cmd) := by omega
  have unmasked : ¬ cmd &&& reservedMask (opcodeOf cmd) ≠ 0 := not_not.2 ((reservedMask_iff cmd legal).2 clear)
  rw [check, if_neg in_range, if_neg unmasked]
  rcases decode_cases decoded with ⟨opc, _, rfl⟩ | ⟨opc, rfl⟩ | ⟨opc, _, rfl⟩ | ⟨opc, _, rfl⟩ | ⟨opc, rfl⟩ |
    ⟨opc, _, rfl⟩ | ⟨opc, _, rfl⟩ <;> rw [opc]
  -- HINIT and KINIT: IDLE, then the lengths.
  case inl | inr.inr.inr.inl => simp [legalStates, verdict]
  -- ST alone decides the other commands.
  all_goals cases st <;> rfl

/-- Of a word that does not decode, Check gives the code it is rejected with. -/
theorem check_of_error {e : DecodeError} (undecodable : decode cmd = .error e) :
    check cfg cmd st = decodeErrCode e := by
  rcases decode_error_cases undecodable with ⟨rfl, illegal⟩ | ⟨rfl, legal, reserved_set⟩
  · exact check_of_illegal illegal
  · exact check_of_reserved legal reserved_set

theorem decodeErrCode_ne_ok (e : DecodeError) : decodeErrCode e ≠ .ok := by
  cases e <;> decide

/-! ### The step of R243 -/

/-- Settles O10: a word that does not decode fails Check and is rejected with its code; one that decodes is rejected or
accepted by the command's verdict, which is Check. -/
theorem stepFollowsCheck : Obligations.StepFollowsCheck := by
  intro s t rest hp fits
  match decoded : decode t.cmd with
  | .error e =>
    have code : check s.cfg t.cmd s.ctx.st = decodeErrCode e := check_of_error decoded
    rw [code]
    exact ⟨fun _ => step_undecodable hp fits decoded, fun ok => absurd ok (decodeErrCode_ne_ok e)⟩
  | .ok i =>
    have code : check s.cfg t.cmd s.ctx.st = verdict s.cfg s.ctx.st i := check_of_decode decoded
    have stepped := stepRunsDecodedInstruction s t rest i hp fits decoded
    rw [code]
    refine ⟨fun failed => stepped.trans (exec_rejected failed), fun ok => ?_⟩
    have accepted := exec_accepted (s := { s with payload := t.payload, port := rest }) ok
    exact ⟨i, _, _, rfl, accepted, stepped.trans accepted⟩

end Sys2Proof.Machine
end

section
/-! Proofs about spec/70_reset_and_hazards.md: reset puts every state element at its value in the table of R37 and leaves
the parameter registers (R270). -/

namespace Sys2Proof.Machine

/-- PARAM0 and PARAM1 show the build alone (R32, R33). -/
theorem paramRegisters_of_cfg_eq {s t : State} (same : t.cfg = s.cfg) :
    readRegister t 1 = readRegister s 1 ∧ readRegister t 2 = readRegister s 2 :=
  ⟨congrArg param0Word same, congrArg param1Word same⟩

/-- Settles O12: the step is applyReset, whatever transaction it carries; that has the context, the code and the output of
State.resetOf, which are those of R37's table, and keeps the build. -/
theorem resetAbandonsAndZeroes : Obligations.ResetAbandonsAndZeroes := by
  intro s inProgress rest hp
  obtain ⟨st, err, n, lanes, hash, cur, lane, hb, fbit, filled, fw, fh, fc, kb, dout, -⟩ := resetStateValues s.cfg
  have params := paramRegisters_of_cfg_eq (applyReset_cfg rest s)
  exact ⟨applyReset rest s, step_reset hp, st, err, n, lanes, hash, fw, fh, cur, lane, fc, fbit, filled, hb, kb,
    applyReset_ctx rest s, dout, params⟩

end Sys2Proof.Machine
end
